-- ==== Sys2Proof/Word.lean ====
section
/-! DEFINITION. The words of the B2D core and the accumulator value type (10_state.md R21, 30_encoding.md R71, R76). -/

namespace Sys2Proof

/-- One slot, one table entry, one character, one opcode: 8 bits, unsigned (00_scope.md R6, R8). -/
abbrev Byte := BitVec 8

/-- A command word `CW[199:0]` (30_encoding.md R71). -/
abbrev CommandWord := BitVec 200

/-- A response word `RW[175:0]` (30_encoding.md R76). -/
abbrev ResponseWord := BitVec 176

/-- An accumulator value `{s0,...,s9}`: ten unsigned bytes, slot 0 the 10^9 place, slot 9 the units place
(10_state.md R21, 00_scope.md R9). Any of the 256 values may stand in any slot. -/
structure Accum where
  s0 : Byte
  s1 : Byte
  s2 : Byte
  s3 : Byte
  s4 : Byte
  s5 : Byte
  s6 : Byte
  s7 : Byte
  s8 : Byte
  s9 : Byte
deriving DecidableEq, Repr

end Sys2Proof
end

