-- ==== Sys2Proof/Config.lean ====
section
/-! DEFINITION. The fixed sizes of the B2D core (00_scope.md R6) and the free values of its responses
(60_exceptions.md R184 choice (b), 93_implementation_defined.md U1, U2, U3). -/

namespace Sys2Proof.Config

/-- `N_IN`: width in bits of the binary input (00_scope.md R6). -/
abbrev nIn : Nat := 32
/-- `N_SLOTS`: digit slots of an accumulator (00_scope.md R6). -/
abbrev nSlots : Nat := 10
/-- `SLOT_MAX`: the largest value a slot can hold (00_scope.md R6). -/
abbrev slotMax : Nat := 255
/-- `BASE`: the radix of the output (00_scope.md R6). -/
abbrev base : Nat := 10
/-- `ROM_ENTRIES` (00_scope.md R6). -/
abbrev romEntries : Nat := 32
/-- `TAB_SIZE`: entries of each carry table (00_scope.md R6). -/
abbrev tabSize : Nat := 256
/-- `TXT_BYTES`: bytes of the text result (00_scope.md R6). -/
abbrev txtBytes : Nat := 11

/-- The code of the digit zero, `'0'`. PRESUMED: supplied by the spec from general knowledge
(43_render.md R165, 93_implementation_defined.md G1; log entry 11). -/
abbrev asciiZero : Byte := 0x30#8
/-- The terminator and fill byte. PRESUMED: supplied by the spec from general knowledge
(43_render.md R166, 93_implementation_defined.md G2; log entry 11). -/
abbrev nul : Byte := 0x00#8

/-- FREE VALUE: all 80 bits of `acc` in the `n`-th response outside the contract
(30_encoding.md R78, 60_exceptions.md R184 (b); log entry 5). No body: nothing can be proved of its values. -/
opaque freeAcc : Nat → BitVec 80
/-- FREE VALUE: all 88 bits of `txt` in the `n`-th response outside the contract (R78, R184 (b); log entry 5). -/
opaque freeTxt : Nat → BitVec 88
/-- FREE VALUE: all 8 bits of `len` in the `n`-th response outside the contract (R78, R184 (b); log entry 5). -/
opaque freeLen : Nat → BitVec 8
/-- FREE VALUE: the address stage `i` of the squeeze looks up, in a command that makes the `n`-th draw, where an addition
before that stage has overflowed (41_normalize.md R124; log entry 13). -/
opaque freeAddress : Nat → Fin 10 → BitVec 8

end Sys2Proof.Config
end

