-- ==== Sys2Proof/Syntax.lean ====
section
/-! DEFINITION. The six commands (30_encoding.md R70, R72), and the host's script notation over them (R80, R81). -/

namespace Sys2Proof

/-- A command with the operands it reads (30_encoding.md R70, R72). Fields of the command word that an operation
ignores are no part of it (R74). -/
inductive Instr where
  /-- `ENC v` (42_encode.md R140). -/
  | enc (v : BitVec 32)
  /-- `ADDL a, b` (40_accumulator_add.md R100). -/
  | addl (a b : Accum)
  /-- `ADDN a, b` (40_accumulator_add.md R110). -/
  | addn (a b : Accum)
  /-- `NORM a` (41_normalize.md R120). -/
  | norm (a : Accum)
  /-- `REND a` (43_render.md R160). -/
  | rend (a : Accum)
  /-- `ENCR v` (42_encode.md R150). -/
  | encr (v : BitVec 32)
deriving DecidableEq, Repr

/-- An accumulator operand of a script line: a literal of ten decimal slot values, slot 0 first, or the name of an
earlier response, which stands for its `acc` field (30_encoding.md R80). -/
inductive ScriptOperand where
  | literal (slots : List Nat)
  | name (r : String)
deriving DecidableEq, Repr

/-- The right side of a script line: a mnemonic or a pseudo-command with its operands, in the operand order of R70
(30_encoding.md R80, R81). A `v` operand is a number. -/
inductive ScriptCommand where
  | enc (v : Nat)
  | addl (a b : ScriptOperand)
  | addn (a b : ScriptOperand)
  | norm (a : ScriptOperand)
  | rend (a : ScriptOperand)
  | encr (v : Nat)
  /-- `ZERO`, which expands to `ENC 0` (R81). -/
  | zero
  /-- `POW2 k`, `0 <= k <= 31`, which expands to `ENC (1 << k)` (R81). -/
  | pow2 (k : Nat)
  /-- `DBL a`, which expands to `ADDN a, a` (R81). -/
  | dbl (a : ScriptOperand)
  /-- `UTOA v`, which expands to `ENCR v` (R81). -/
  | utoa (v : Nat)
deriving DecidableEq, Repr

/-- A script line `<name> = <MNEMONIC> <operand>{, <operand>}`; the name is the host's, not a register
(30_encoding.md R80). -/
structure ScriptLine where
  name : String
  command : ScriptCommand
deriving DecidableEq, Repr

end Sys2Proof
end

