-- ==== Sys2Proof/WellFormed.lean ====
section
/-! DEFINITION. Well-formedness of commands and of script lines (30_encoding.md R73, R80, R81). -/

namespace Sys2Proof

/-- Every command is well formed: `v` is any 32-bit number and a slot is any byte, "with no range check"
(30_encoding.md R73, 10_state.md R21). What the operations require of their operands is the contract
(Machine/Flags.lean), which the hardware does not check. -/
def Instr.wellFormed : Instr → Bool
  | .enc _ => true
  | .addl _ _ => true
  | .addn _ _ => true
  | .norm _ => true
  | .rend _ => true
  | .encr _ => true

/-- A literal has ten slot values, each a byte; a name is any name (30_encoding.md R80, 10_state.md R21). -/
def ScriptOperand.wellFormed : ScriptOperand → Bool
  | .literal slots => slots.length == Config.nSlots && slots.all (· ≤ Config.slotMax)
  | .name _ => true

/-- A `v` operand fits 32 bits (00_scope.md R6). -/
def fitsInput (v : Nat) : Bool := v < 2 ^ Config.nIn

/-- `POW2 k` needs `0 <= k <= 31` (30_encoding.md R81). -/
def ScriptCommand.wellFormed : ScriptCommand → Bool
  | .enc v => fitsInput v
  | .addl a b => a.wellFormed && b.wellFormed
  | .addn a b => a.wellFormed && b.wellFormed
  | .norm a => a.wellFormed
  | .rend a => a.wellFormed
  | .encr v => fitsInput v
  | .zero => true
  | .pow2 k => k < Config.romEntries
  | .dbl a => a.wellFormed
  | .utoa v => fitsInput v

end Sys2Proof
end

