-- ==== Sys2Proof/Decode.lean ====
section
/-! DEFINITION. Packing of accumulator values (20_memory.md R55), the command word's fields and the decoder
(30_encoding.md R71, R72, R79), and after them the encoder `encode_cmd` (R79). -/

namespace Sys2Proof

/-- `pack(A) = A[0] ‖ A[1] ‖ ... ‖ A[9]`: slot `i` is bits `[79-8i : 72-8i]` (20_memory.md R55). -/
def Accum.pack (a : Accum) : BitVec 80 :=
  a.s0 ++ a.s1 ++ a.s2 ++ a.s3 ++ a.s4 ++ a.s5 ++ a.s6 ++ a.s7 ++ a.s8 ++ a.s9

/-- `unpack`, the inverse of `pack` (20_memory.md R55). -/
def Accum.unpack (x : BitVec 80) : Accum where
  s0 := x.extractLsb' 72 8
  s1 := x.extractLsb' 64 8
  s2 := x.extractLsb' 56 8
  s3 := x.extractLsb' 48 8
  s4 := x.extractLsb' 40 8
  s5 := x.extractLsb' 32 8
  s6 := x.extractLsb' 24 8
  s7 := x.extractLsb' 16 8
  s8 := x.extractLsb' 8 8
  s9 := x.extractLsb' 0 8

/-- `op = CW[199:192]` (30_encoding.md R71). -/
def opField (cw : CommandWord) : Byte := cw.extractLsb' 192 8
/-- `v = CW[191:160]` (30_encoding.md R71). -/
def vField (cw : CommandWord) : BitVec 32 := cw.extractLsb' 160 32
/-- `a = CW[159:80]` (30_encoding.md R71). -/
def aField (cw : CommandWord) : BitVec 80 := cw.extractLsb' 80 80
/-- `b = CW[79:0]` (30_encoding.md R71). -/
def bField (cw : CommandWord) : BitVec 80 := cw.extractLsb' 0 80

/-- What the decoder says of a command word: a command, or the *reserved* verdict with the opcode
(30_encoding.md R75, R79). -/
inductive Decoded where
  | command (i : Instr)
  | reserved (op : Byte)
deriving DecidableEq, Repr

/-- The decoder of 30_encoding.md R79, total on all `2^200` command words; it looks at `op` only (R72). -/
def decode (cw : CommandWord) : Decoded :=
  if opField cw = 0x01#8 then .command (.enc (vField cw))
  else if opField cw = 0x02#8 then .command (.addl (Accum.unpack (aField cw)) (Accum.unpack (bField cw)))
  else if opField cw = 0x03#8 then .command (.addn (Accum.unpack (aField cw)) (Accum.unpack (bField cw)))
  else if opField cw = 0x04#8 then .command (.norm (Accum.unpack (aField cw)))
  else if opField cw = 0x05#8 then .command (.rend (Accum.unpack (aField cw)))
  else if opField cw = 0x06#8 then .command (.encr (vField cw))
  else .reserved (opField cw)

/-- The command of a decoder's verdict, if there is one. -/
def instrOf : Decoded → Option Instr
  | .command i => some i
  | .reserved _ => none

/-- The command word whose low `nbits` bits are those of `w` and whose other bits are zero; bits are numbered as
spec/opcode_table.json numbers them, `CW[0]` the least significant (30_encoding.md R72). -/
def tableCommandWord (nbits w : Nat) : CommandWord := BitVec.ofNat 200 (w % 2 ^ nbits)

/-- The command that `decode` reads from a word of the opcode table, none where it says reserved. -/
def decodeTableWord (nbits w : Nat) : Option Instr := instrOf (decode (tableCommandWord nbits w))

/-- The opcode of a command (30_encoding.md R72). -/
def opcodeOf : Instr → Byte
  | .enc _ => 0x01#8
  | .addl _ _ => 0x02#8
  | .addn _ _ => 0x03#8
  | .norm _ => 0x04#8
  | .rend _ => 0x05#8
  | .encr _ => 0x06#8

/-- A command word from its four fields (30_encoding.md R71). -/
def commandWord (op : Byte) (v : BitVec 32) (a b : BitVec 80) : CommandWord := op ++ v ++ a ++ b

/-- `encode_cmd`: the canonical encoding, ignored fields zero (30_encoding.md R74, R79). -/
def encode : Instr → CommandWord
  | .enc v => commandWord 0x01#8 v 0#80 0#80
  | .addl a b => commandWord 0x02#8 0#32 a.pack b.pack
  | .addn a b => commandWord 0x03#8 0#32 a.pack b.pack
  | .norm a => commandWord 0x04#8 0#32 a.pack 0#80
  | .rend a => commandWord 0x05#8 0#32 a.pack 0#80
  | .encr v => commandWord 0x06#8 v 0#80 0#80

/-- `op` names an operation (30_encoding.md R72, R75). -/
def definedOpcode (op : Byte) : Bool := 0x01#8 ≤ op && op ≤ 0x06#8

/-- An operation reads `v` exactly when it is ENC or ENCR (30_encoding.md R72). -/
def readsV (op : Byte) : Bool := op == 0x01#8 || op == 0x06#8
/-- An operation reads `a` exactly when it is ADDL, ADDN, NORM or REND (30_encoding.md R72). -/
def readsA (op : Byte) : Bool := op == 0x02#8 || op == 0x03#8 || op == 0x04#8 || op == 0x05#8
/-- An operation reads `b` exactly when it is ADDL or ADDN (30_encoding.md R72). -/
def readsB (op : Byte) : Bool := op == 0x02#8 || op == 0x03#8

/-- A canonical command word: a defined opcode and zero in every ignored field (30_encoding.md R74, R79). -/
def isCanonical (cw : CommandWord) : Bool :=
  definedOpcode (opField cw) &&
  (readsV (opField cw) || vField cw == 0#32) &&
  (readsA (opField cw) || aField cw == 0#80) &&
  (readsB (opField cw) || bField cw == 0#80)

end Sys2Proof
end

