-- ==== Sys2Proof/Machine/Operands.lean ====
section
/-! DEFINITION. Accumulator values by slot (00_scope.md R9, R10; 10_state.md R21 to R23) and the response word's fields
(20_memory.md R56, 30_encoding.md R76). -/

namespace Sys2Proof.Machine

/-- `A[i]`, slot `i` of an accumulator value (00_scope.md R9). -/
def slotOf (a : Accum) (i : Fin 10) : Byte :=
  match i with
  | 0 => a.s0
  | 1 => a.s1
  | 2 => a.s2
  | 3 => a.s3
  | 4 => a.s4
  | 5 => a.s5
  | 6 => a.s6
  | 7 => a.s7
  | 8 => a.s8
  | 9 => a.s9

/-- `W[i] <- e` (00_scope.md R11). -/
def setSlot (a : Accum) (i : Fin 10) (e : Byte) : Accum :=
  match i with
  | 0 => { a with s0 := e }
  | 1 => { a with s1 := e }
  | 2 => { a with s2 := e }
  | 3 => { a with s3 := e }
  | 4 => { a with s4 := e }
  | 5 => { a with s5 := e }
  | 6 => { a with s6 := e }
  | 7 => { a with s7 := e }
  | 8 => { a with s8 := e }
  | 9 => { a with s9 := e }

/-- The accumulator value whose slot `i` is `f i`. -/
def ofSlots (f : Fin 10 → Byte) : Accum :=
  ⟨f 0, f 1, f 2, f 3, f 4, f 5, f 6, f 7, f 8, f 9⟩

/-- The ten slot values, slot 0 first (00_scope.md R9). -/
def slotList (a : Accum) : List Byte :=
  [a.s0, a.s1, a.s2, a.s3, a.s4, a.s5, a.s6, a.s7, a.s8, a.s9]

/-- `ZERO10` (00_scope.md R9). -/
def zero10 : Accum := ⟨0#8, 0#8, 0#8, 0#8, 0#8, 0#8, 0#8, 0#8, 0#8, 0#8⟩

/-- The weight of place `i`, `10^(9-i)` (10_state.md R21). -/
def placeValue (i : Fin 10) : Nat := 10 ^ (9 - i.val)

/-- `val(A)`, the number an accumulator value stands for, not truncated (00_scope.md R10, 10_state.md R23). -/
def val (a : Accum) : Nat :=
  a.s0.toNat * 10 ^ 9 + a.s1.toNat * 10 ^ 8 + a.s2.toNat * 10 ^ 7 + a.s3.toNat * 10 ^ 6 + a.s4.toNat * 10 ^ 5 +
  a.s5.toNat * 10 ^ 4 + a.s6.toNat * 10 ^ 3 + a.s7.toNat * 10 ^ 2 + a.s8.toNat * 10 + a.s9.toNat

/-- `dec10(n)`: slot `i` is `floor(n / 10^(9-i)) mod 10` (00_scope.md R10). R10 defines it for `n < 10^10` only. That
the same formula is taken above, which keeps the last ten digits of `n`, is the model's choice (DESIGN CHOICE, log
entry 19). -/
def dec10 (n : Nat) : Accum := ofSlots fun i => BitVec.ofNat 8 (n / placeValue i % 10)

/-- The accumulator value of a list of ten slot values, none where the list is no such literal (30_encoding.md R80). -/
def ofLiteral (slots : List Nat) : Option Accum :=
  if ScriptOperand.wellFormed (.literal slots)
  then some (ofSlots fun i => BitVec.ofNat 8 (slots.getD i.val 0)) else none

/-- `RW = acc ‖ txt ‖ len` (30_encoding.md R76). -/
def responseWord (acc : BitVec 80) (txt : BitVec 88) (len : Byte) : ResponseWord := acc ++ txt ++ len

/-- `acc = RW[175:96]` (30_encoding.md R76). -/
def accField (rw : ResponseWord) : BitVec 80 := rw.extractLsb' 96 80
/-- `txt = RW[95:8]` (30_encoding.md R76). -/
def txtField (rw : ResponseWord) : BitVec 88 := rw.extractLsb' 8 88
/-- `len = RW[7:0]` (30_encoding.md R76). -/
def lenField (rw : ResponseWord) : Byte := rw.extractLsb' 0 8

/-- The text field whose character `j` is the `j`-th of `chars`, with `0x00` behind them: character `j` is bits
`[87-8j : 80-8j]` (20_memory.md R56, 43_render.md R166). -/
def packText (chars : List Byte) : BitVec 88 :=
  chars.getD 0 Config.nul ++ chars.getD 1 Config.nul ++ chars.getD 2 Config.nul ++ chars.getD 3 Config.nul ++
  chars.getD 4 Config.nul ++ chars.getD 5 Config.nul ++ chars.getD 6 Config.nul ++ chars.getD 7 Config.nul ++
  chars.getD 8 Config.nul ++ chars.getD 9 Config.nul ++ chars.getD 10 Config.nul

/-- Character `j` of a text field: bits `[87-8j : 80-8j]` (20_memory.md R56). -/
def charAt (txt : BitVec 88) (j : Fin 11) : Byte := txt.extractLsb' (80 - 8 * j.val) 8

/-- The eleven characters of a text field, the first one first (20_memory.md R56). -/
def textBytes (txt : BitVec 88) : List Byte := (List.finRange 11).map (charAt txt)

/-- The host's first way to read a text: `len` characters (60_exceptions.md R191). A free `len` outside the contract may
pass 11; that reading then stops at the eleventh byte is the model's choice (DESIGN CHOICE, log entry 21). -/
def readByLength (rw : ResponseWord) : List Byte := (textBytes (txtField rw)).take (lenField rw).toNat

/-- The host's second way to read a text: up to the first `0x00` byte (60_exceptions.md R191). A free `txt` outside the
contract may hold none; that reading then stops at the eleventh byte is the model's choice (DESIGN CHOICE, log
entry 21). -/
def readToTerminator (rw : ResponseWord) : List Byte := (textBytes (txtField rw)).takeWhile (· != Config.nul)

end Sys2Proof.Machine
end

