-- ==== Sys2Proof/Machine/ConstantMemories.lean ====
section
/-! DEFINITION. The three constant memories: their contents (20_memory.md R44, R48, R49) and the reads of them
(00_scope.md R11, 20_memory.md R40, R51). They are constants, not fields of State (10_state.md R25; log entry 10). -/

namespace Sys2Proof.Machine

/-- ROM entries 0 to 7, slot 0 first (20_memory.md R44). -/
def romRows0 : List Accum :=
  [⟨0, 0, 0, 0, 0, 0, 0, 0, 0, 1⟩,
   ⟨0, 0, 0, 0, 0, 0, 0, 0, 0, 2⟩,
   ⟨0, 0, 0, 0, 0, 0, 0, 0, 0, 4⟩,
   ⟨0, 0, 0, 0, 0, 0, 0, 0, 0, 8⟩,
   ⟨0, 0, 0, 0, 0, 0, 0, 0, 1, 6⟩,
   ⟨0, 0, 0, 0, 0, 0, 0, 0, 3, 2⟩,
   ⟨0, 0, 0, 0, 0, 0, 0, 0, 6, 4⟩,
   ⟨0, 0, 0, 0, 0, 0, 0, 1, 2, 8⟩]

/-- ROM entries 8 to 15, slot 0 first (20_memory.md R44). -/
def romRows8 : List Accum :=
  [⟨0, 0, 0, 0, 0, 0, 0, 2, 5, 6⟩,
   ⟨0, 0, 0, 0, 0, 0, 0, 5, 1, 2⟩,
   ⟨0, 0, 0, 0, 0, 0, 1, 0, 2, 4⟩,
   ⟨0, 0, 0, 0, 0, 0, 2, 0, 4, 8⟩,
   ⟨0, 0, 0, 0, 0, 0, 4, 0, 9, 6⟩,
   ⟨0, 0, 0, 0, 0, 0, 8, 1, 9, 2⟩,
   ⟨0, 0, 0, 0, 0, 1, 6, 3, 8, 4⟩,
   ⟨0, 0, 0, 0, 0, 3, 2, 7, 6, 8⟩]

/-- ROM entries 16 to 23, slot 0 first (20_memory.md R44). -/
def romRows16 : List Accum :=
  [⟨0, 0, 0, 0, 0, 6, 5, 5, 3, 6⟩,
   ⟨0, 0, 0, 0, 1, 3, 1, 0, 7, 2⟩,
   ⟨0, 0, 0, 0, 2, 6, 2, 1, 4, 4⟩,
   ⟨0, 0, 0, 0, 5, 2, 4, 2, 8, 8⟩,
   ⟨0, 0, 0, 1, 0, 4, 8, 5, 7, 6⟩,
   ⟨0, 0, 0, 2, 0, 9, 7, 1, 5, 2⟩,
   ⟨0, 0, 0, 4, 1, 9, 4, 3, 0, 4⟩,
   ⟨0, 0, 0, 8, 3, 8, 8, 6, 0, 8⟩]

/-- ROM entries 24 to 31, slot 0 first (20_memory.md R44). -/
def romRows24 : List Accum :=
  [⟨0, 0, 1, 6, 7, 7, 7, 2, 1, 6⟩,
   ⟨0, 0, 3, 3, 5, 5, 4, 4, 3, 2⟩,
   ⟨0, 0, 6, 7, 1, 0, 8, 8, 6, 4⟩,
   ⟨0, 1, 3, 4, 2, 1, 7, 7, 2, 8⟩,
   ⟨0, 2, 6, 8, 4, 3, 5, 4, 5, 6⟩,
   ⟨0, 5, 3, 6, 8, 7, 0, 9, 1, 2⟩,
   ⟨1, 0, 7, 3, 7, 4, 1, 8, 2, 4⟩,
   ⟨2, 1, 4, 7, 4, 8, 3, 6, 4, 8⟩]

/-- The power-of-two decimal ROM, entry `k` first at `k = 0` (20_memory.md R41, R43, R44). -/
def romTable : List Accum := romRows0 ++ romRows8 ++ romRows16 ++ romRows24

/-- `QTAB[0]` to `QTAB[63]` (20_memory.md R48). -/
def qtabRows0 : List Byte :=
  [0, 0, 0, 0, 0, 0, 0, 0, 0, 0, 1, 1, 1, 1, 1, 1,
   1, 1, 1, 1, 2, 2, 2, 2, 2, 2, 2, 2, 2, 2, 3, 3,
   3, 3, 3, 3, 3, 3, 3, 3, 4, 4, 4, 4, 4, 4, 4, 4,
   4, 4, 5, 5, 5, 5, 5, 5, 5, 5, 5, 5, 6, 6, 6, 6]

/-- `QTAB[64]` to `QTAB[127]` (20_memory.md R48). -/
def qtabRows64 : List Byte :=
  [6, 6, 6, 6, 6, 6, 7, 7, 7, 7, 7, 7, 7, 7, 7, 7,
   8, 8, 8, 8, 8, 8, 8, 8, 8, 8, 9, 9, 9, 9, 9, 9,
   9, 9, 9, 9, 10, 10, 10, 10, 10, 10, 10, 10, 10, 10, 11, 11,
   11, 11, 11, 11, 11, 11, 11, 11, 12, 12, 12, 12, 12, 12, 12, 12]

/-- `QTAB[128]` to `QTAB[191]` (20_memory.md R48). -/
def qtabRows128 : List Byte :=
  [12, 12, 13, 13, 13, 13, 13, 13, 13, 13, 13, 13, 14, 14, 14, 14,
   14, 14, 14, 14, 14, 14, 15, 15, 15, 15, 15, 15, 15, 15, 15, 15,
   16, 16, 16, 16, 16, 16, 16, 16, 16, 16, 17, 17, 17, 17, 17, 17,
   17, 17, 17, 17, 18, 18, 18, 18, 18, 18, 18, 18, 18, 18, 19, 19]

/-- `QTAB[192]` to `QTAB[255]` (20_memory.md R48). -/
def qtabRows192 : List Byte :=
  [19, 19, 19, 19, 19, 19, 19, 19, 20, 20, 20, 20, 20, 20, 20, 20,
   20, 20, 21, 21, 21, 21, 21, 21, 21, 21, 21, 21, 22, 22, 22, 22,
   22, 22, 22, 22, 22, 22, 23, 23, 23, 23, 23, 23, 23, 23, 23, 23,
   24, 24, 24, 24, 24, 24, 24, 24, 24, 24, 25, 25, 25, 25, 25, 25]

/-- The quotient table `QTAB` (20_memory.md R48). -/
def qtabTable : List Byte := qtabRows0 ++ qtabRows64 ++ qtabRows128 ++ qtabRows192

/-- `RTAB[0]` to `RTAB[63]` (20_memory.md R49). -/
def rtabRows0 : List Byte :=
  [0, 1, 2, 3, 4, 5, 6, 7, 8, 9, 0, 1, 2, 3, 4, 5,
   6, 7, 8, 9, 0, 1, 2, 3, 4, 5, 6, 7, 8, 9, 0, 1,
   2, 3, 4, 5, 6, 7, 8, 9, 0, 1, 2, 3, 4, 5, 6, 7,
   8, 9, 0, 1, 2, 3, 4, 5, 6, 7, 8, 9, 0, 1, 2, 3]

/-- `RTAB[64]` to `RTAB[127]` (20_memory.md R49). -/
def rtabRows64 : List Byte :=
  [4, 5, 6, 7, 8, 9, 0, 1, 2, 3, 4, 5, 6, 7, 8, 9,
   0, 1, 2, 3, 4, 5, 6, 7, 8, 9, 0, 1, 2, 3, 4, 5,
   6, 7, 8, 9, 0, 1, 2, 3, 4, 5, 6, 7, 8, 9, 0, 1,
   2, 3, 4, 5, 6, 7, 8, 9, 0, 1, 2, 3, 4, 5, 6, 7]

/-- `RTAB[128]` to `RTAB[191]` (20_memory.md R49). -/
def rtabRows128 : List Byte :=
  [8, 9, 0, 1, 2, 3, 4, 5, 6, 7, 8, 9, 0, 1, 2, 3,
   4, 5, 6, 7, 8, 9, 0, 1, 2, 3, 4, 5, 6, 7, 8, 9,
   0, 1, 2, 3, 4, 5, 6, 7, 8, 9, 0, 1, 2, 3, 4, 5,
   6, 7, 8, 9, 0, 1, 2, 3, 4, 5, 6, 7, 8, 9, 0, 1]

/-- `RTAB[192]` to `RTAB[255]` (20_memory.md R49). -/
def rtabRows192 : List Byte :=
  [2, 3, 4, 5, 6, 7, 8, 9, 0, 1, 2, 3, 4, 5, 6, 7,
   8, 9, 0, 1, 2, 3, 4, 5, 6, 7, 8, 9, 0, 1, 2, 3,
   4, 5, 6, 7, 8, 9, 0, 1, 2, 3, 4, 5, 6, 7, 8, 9,
   0, 1, 2, 3, 4, 5, 6, 7, 8, 9, 0, 1, 2, 3, 4, 5]

/-- The remainder table `RTAB` (20_memory.md R49). -/
def rtabTable : List Byte := rtabRows0 ++ rtabRows64 ++ rtabRows128 ++ rtabRows192

/-- `RomRead(k) = MemRead(ROM, k, 10)` (00_scope.md R11). The address is the bit position, a 5-bit number, so no other
address can be formed (20_memory.md R43, R52). -/
def romRead (k : Fin 32) : Accum := romTable.getD k.val zero10

/-- `QLook(b) = MemRead(QTAB, b, 1)` (00_scope.md R11); every byte is a legal address (20_memory.md R51). -/
def qLook (b : Byte) : Byte := qtabTable.getD b.toNat 0#8

/-- `RLook(b) = MemRead(RTAB, b, 1)` (00_scope.md R11); every byte is a legal address (20_memory.md R51). -/
def rLook (b : Byte) : Byte := rtabTable.getD b.toNat 0#8

/-- A read of one whole entry of a constant memory, by its address (20_memory.md R40, R51, R52). -/
inductive MemAccess where
  | rom (k : Fin 32)
  | qtab (b : Byte)
  | rtab (b : Byte)
deriving DecidableEq, Repr

/-- `MemRead`: the bytes of the entry read, ten from the ROM and one from a table (00_scope.md R11, 20_memory.md R51).
It is a function of the address alone: a read changes nothing (20_memory.md R53). -/
def memRead : MemAccess → List Byte
  | .rom k => slotList (romRead k)
  | .qtab b => [qLook b]
  | .rtab b => [rLook b]

end Sys2Proof.Machine
end

