-- ==== Sys2Proof/Machine/Flags.lean ====
section
/-! DEFINITION. The hardware has no flags, condition codes or status bits (10_state.md R30), so no flag is computed.
What stands here in their place is every condition on operand values that the spec states: happiness and the
no-overflow conditions that the hardware does not check (10_state.md R22, 40_accumulator_add.md R101,
41_normalize.md R123). -/

namespace Sys2Proof.Machine

/-- `happy(A)`: every slot is in `[0, 9]` (00_scope.md R10, 10_state.md R22). -/
abbrev happy (a : Accum) : Prop := ∀ i : Fin 10, (slotOf a i).toNat ≤ 9

/-- The precondition of ADDL, the no-overflow contract: every `a[i] + b[i] <= 255` (40_accumulator_add.md R101). -/
abbrev lazyFits (a b : Accum) : Prop := ∀ i : Fin 10, (slotOf a i).toNat + (slotOf b i).toNat ≤ Config.slotMax

/-- The stage input `n` places to the left of slot 9: `t_9 = a[9]`, `t_(i-1) = a[i-1] + floor(t_i / 10)`
(41_normalize.md R123). -/
def stageInputFromRight (a : Accum) : Nat → Nat
  | 0 => (slotOf a 9).toNat
  | n + 1 => (slotOf a (Fin.ofNat 10 (8 - n))).toNat + stageInputFromRight a n / 10

/-- `t_i`, a natural number, not truncated (41_normalize.md R123). -/
def stageInput (a : Accum) (i : Fin 10) : Nat := stageInputFromRight a (9 - i.val)

/-- The precondition of NORM: every stage input is at most 255 (41_normalize.md R123). -/
abbrev squeezeFits (a : Accum) : Prop := ∀ i : Fin 10, stageInput a i ≤ Config.slotMax

end Sys2Proof.Machine
end

