-- ==== Sys2Proof/Machine/State.lean ====
section
/-! DEFINITION. The state of the B2D core between commands, its reset value, and the reasons a step can stop
(10_state.md R20, R34; 60_exceptions.md R180, R184). -/

namespace Sys2Proof.Machine

/-- No constructor: "The hardware raises no exception, takes no trap and reports no error, for any command"
(60_exceptions.md R180), so nothing raises a fault. -/
inductive Fault where
deriving DecidableEq, Repr

/-- Why the machine gives a command no meaning. The mark that 60_exceptions.md R184 (a) asks a refusing model to keep
is the end of the run with this reason. -/
inductive Refusal where
  /-- Raised by an arm of `exec` whose instruction has no meaning yet; no arm is one now. Safe. -/
  | notModelled (mnemonic : String)
  /-- Raised by `step` for a command word whose `op` is `0x00` or `0x07` to `0xFF` (CV4; 30_encoding.md R75:
  "the machine **refuses** such a command"). Safe. -/
  | reservedOpcode (op : Byte)
deriving DecidableEq, Repr

/-- One action of the host on the block (60_exceptions.md R191): present a command word, or reset it
(70_reset_and_hazards.md R200). -/
inductive HostEvent where
  | command (cw : CommandWord)
  | reset
deriving DecidableEq, Repr

/-- The state between commands. The hardware keeps none (10_state.md R20): the first field is the host's side of the
command port, the second what the response port has given, the third the model's own bookkeeping. -/
structure State where
  /-- The host's actions that have not happened yet, oldest first (60_exceptions.md R190, R191; log entry 1). -/
  hostEvents : List HostEvent
  /-- The response words completed since the last reset, oldest first; empty when no response exists
  (30_encoding.md R76, 10_state.md R34, 93_implementation_defined.md U12; log entry 3). -/
  responses : List ResponseWord
  /-- The MODEL's own field: how many responses have drawn free values (60_exceptions.md R184 (b); log entries 5, 6). -/
  draws : Nat
deriving DecidableEq, Repr

/-- Right after reset: "no command outstanding, no response pending" (70_reset_and_hazards.md R200). The value of
`draws` is a DESIGN CHOICE (log entry 6). -/
def State.reset : State where
  hostEvents := []
  responses := []
  draws := 0

end Sys2Proof.Machine
end

