-- ==== Sys2Proof/Machine/Ops.lean ====
section
/-! DEFINITION. The shared operations: slot arithmetic, lazy addition, the squeeze, the scan, the renderer, giving a
response, and what the host does to the block. `none` stands for the spec's `unspecified`. There is no exception to
take and none to return from (60_exceptions.md R180, R187). -/

namespace Sys2Proof.Machine

/-- Slot addition `a + b`: the exact sum where it is at most 255, unspecified otherwise (00_scope.md R12). -/
def slotAdd (x y : Byte) : Option Byte :=
  if x.toNat + y.toNat ≤ Config.slotMax then some (x + y) else none

/-- `addLazy(a, b)`: each slot of `a` plus the same slot of `b`, independently; the whole value is unspecified where
one slot overflows (40_accumulator_add.md R100, R101, R102). -/
def addLazy (a b : Accum) : Option Accum :=
  if lazyFits a b then some (ofSlots fun i => slotOf a i + slotOf b i) else none

/-- Stage `i` of the squeeze on the working accumulator `W`: `q <- QLook(W[i])`, `r <- RLook(W[i])`,
`W[i-1] <- W[i-1] + q`, `W[i] <- r` (41_normalize.md R120, R131). -/
def squeezeStage (w : Accum) (i : Fin 10) : Option Accum :=
  match slotAdd (slotOf w (i - 1)) (qLook (slotOf w i)) with
  | some left => some (setSlot (setSlot w (i - 1) left) i (rLook (slotOf w i)))
  | none => none

/-- The stages in the given order, each on what the one before left in `W` (41_normalize.md R122). -/
def squeezeFrom : List (Fin 10) → Accum → Option Accum
  | [], w => some w
  | i :: is, w =>
    match squeezeStage w i with
    | some w' => squeezeFrom is w'
    | none => none

/-- `for i = 9 downto 1`: nine stages, slot 0 is never divided (41_normalize.md R120, R128, R130). -/
def stageOrder : List (Fin 10) := [9, 8, 7, 6, 5, 4, 3, 2, 1]

/-- `normalize(a)`, the squeeze (41_normalize.md R120, R124). -/
def squeeze (a : Accum) : Option Accum := squeezeFrom stageOrder a

/-- Scan position `k`: the ROM entry of bit `k` is added lazily where `v[k] = 1` (42_encode.md R140, R142). -/
def scanPosition (v : BitVec 32) (w : Accum) (k : Fin 32) : Option Accum :=
  if v.getLsbD k.val then addLazy w (romRead k) else some w

/-- The scan positions in the given order (42_encode.md R140). -/
def scanFrom (v : BitVec 32) : List (Fin 32) → Accum → Option Accum
  | [], w => some w
  | k :: ks, w =>
    match scanPosition v w k with
    | some w' => scanFrom v ks w'
    | none => none

/-- `for k = 31 downto 0`: all 32 positions, most significant first (42_encode.md R140, R142). -/
def scanOrder : List (Fin 32) :=
  [31, 30, 29, 28, 27, 26, 25, 24] ++ [23, 22, 21, 20, 19, 18, 17, 16] ++
  [15, 14, 13, 12, 11, 10, 9, 8] ++ [7, 6, 5, 4, 3, 2, 1, 0]

/-- The lazy sum of ENC before the squeeze; it starts from `ZERO10` (42_encode.md R141, R143). -/
def lazySum (v : BitVec 32) : Option Accum := scanFrom v scanOrder zero10

/-- `encode(v)`: the scan, then exactly one squeeze (42_encode.md R140, R144). -/
def encodeDecimal (v : BitVec 32) : Option Accum :=
  match lazySum v with
  | some w => squeeze w
  | none => none

/-- A text result: the fields `txt` and `len` of a response (30_encoding.md R76). -/
structure Text where
  txt : BitVec 88
  len : Byte
deriving DecidableEq, Repr

/-- `txt = 0`, `len = 0`: no text in this response (30_encoding.md R77). -/
def noText : Text := ⟨0#88, 0#8⟩

/-- `z`, the number of leading slots equal to 0 (43_render.md R164). -/
def leadingZeros (a : Accum) : Nat := ((slotList a).takeWhile (· == 0#8)).length

/-- The characters emitted, without the terminator: `"0"` for `ZERO10`, otherwise `a[i] + '0'` for `i` from `z` to 9
(43_render.md R160, R163, R164, R165). -/
def digitChars (a : Accum) : List Byte :=
  if a = zero10 then [Config.asciiZero] else ((slotList a).drop (leadingZeros a)).map (· + Config.asciiZero)

/-- `len`: 1 for `ZERO10`, otherwise `10 - z` (43_render.md R160, R167). -/
def renderLength (a : Accum) : Byte :=
  if a = zero10 then 1#8 else BitVec.ofNat 8 (Config.nSlots - leadingZeros a)

/-- `render(a)`: unspecified where `a` is not happy (43_render.md R160, R161, R162). -/
def render (a : Accum) : Option Text :=
  if happy a then some ⟨packText (digitChars a), renderLength a⟩ else none

/-- What a command puts into its response: the `acc` field and the text fields, `none` where they are unspecified
(30_encoding.md R76, R78). -/
structure Reply where
  acc : Option (BitVec 80)
  text : Option Text
deriving DecidableEq, Repr

/-- The reply of an operation that produces an accumulator and no text (30_encoding.md R77). -/
def accReply (c : Option Accum) : Reply := ⟨c.map Accum.pack, some noText⟩

/-- The reply of an operation that produces a text and no accumulator: `acc = 0` (30_encoding.md R77). -/
def textReply (t : Option Text) : Reply := ⟨some 0#80, t⟩

/-- Every field of the reply is specified. -/
def Reply.specified (r : Reply) : Bool := r.acc.isSome && r.text.isSome

/-- The response word of a reply, its unspecified fields drawn as the `n`-th free values (60_exceptions.md R184 (b);
log entry 5). -/
def settle (r : Reply) (n : Nat) : ResponseWord :=
  responseWord (r.acc.getD (Config.freeAcc n)) ((r.text.getD ⟨Config.freeTxt n, Config.freeLen n⟩).txt)
    ((r.text.getD ⟨Config.freeTxt n, Config.freeLen n⟩).len)

/-- `respond`: complete the command with exactly one response (30_encoding.md R76). A response that drew free values
advances the counter, so that the next draw is another one. -/
def respond (r : Reply) (s : State) : Host.Outcome State Fault Refusal :=
  .next { s with
    responses := s.responses ++ [settle r s.draws]
    draws := if r.specified then s.draws else s.draws + 1 }

/-- The host's next action, and the state with it taken off (60_exceptions.md R190: "one at a time, in the order
presented"). -/
def takeEvent (s : State) : Option (HostEvent × State) :=
  match s.hostEvents with
  | [] => none
  | e :: es => some (e, { s with hostEvents := es })

/-- The host's reset: "no command outstanding, no response pending" (70_reset_and_hazards.md R200, R202). The constant
memories are not touched (R201); the counter of draws is the model's own and goes on (log entry 4). -/
def resetBlock (s : State) : State := { s with responses := [] }

/-- With nothing presented the block is idle (60_exceptions.md R192; log entry 2). -/
def idle (s : State) : State := s

/-- The host presents a command as its very next action. -/
def presentNext (cw : CommandWord) (s : State) : State :=
  { s with hostEvents := .command cw :: s.hostEvents }

end Sys2Proof.Machine
end

