-- ==== Sys2Proof/Machine/Accumulate.lean ====
section
/-! DEFINITION. Accumulator addition: ADDL and ADDN (40_accumulator_add.md). -/

namespace Sys2Proof.Machine

/-- The reply of `ADDL a, b` (40_accumulator_add.md R100, R102). -/
def replyAddl (a b : Accum) : Reply := accReply (addLazy a b)

/-- `ADDL a, b` (40_accumulator_add.md R100). -/
def execAddl (a b : Accum) (s : State) : Host.Outcome State Fault Refusal := respond (replyAddl a b) s

/-- `normalize(addLazy(a, b))` (40_accumulator_add.md R110, R111). -/
def addNormalizing (a b : Accum) : Option Accum :=
  match addLazy a b with
  | some w => squeeze w
  | none => none

/-- The reply of `ADDN a, b` (40_accumulator_add.md R110, R111). -/
def replyAddn (a b : Accum) : Reply := accReply (addNormalizing a b)

/-- `ADDN a, b` (40_accumulator_add.md R110). -/
def execAddn (a b : Accum) (s : State) : Host.Outcome State Fault Refusal := respond (replyAddn a b) s

end Sys2Proof.Machine
end

