-- ==== Sys2Proof/Machine/Encode.lean ====
section
/-! DEFINITION. The encoder, ENC and ENCR (42_encode.md). -/

namespace Sys2Proof.Machine

/-- The reply of `ENC v` (42_encode.md R140). -/
def replyEnc (v : BitVec 32) : Reply := accReply (encodeDecimal v)

/-- `ENC v` (42_encode.md R140). -/
def execEnc (v : BitVec 32) (s : State) : Host.Outcome State Fault Refusal := respond (replyEnc v) s

/-- The reply of `ENCR v`: `W <- ENC(v)`, `(txt, len) <- REND(W)`, all three fields given (42_encode.md R150). The
second case does not arise (42_encode.md R145; log entry 12). -/
def replyEncr (v : BitVec 32) : Reply :=
  match encodeDecimal v with
  | some w => ⟨some w.pack, render w⟩
  | none => ⟨none, none⟩

/-- `ENCR v` (42_encode.md R150). -/
def execEncr (v : BitVec 32) (s : State) : Host.Outcome State Fault Refusal := respond (replyEncr v) s

end Sys2Proof.Machine
end

