-- ==== Sys2Proof/Machine/Normalize.lean ====
section
/-! DEFINITION. Carry normalization, NORM, and its pipeline view (41_normalize.md). -/

namespace Sys2Proof.Machine

/-- The reply of `NORM a` (41_normalize.md R120, R124). -/
def replyNorm (a : Accum) : Reply := accReply (squeeze a)

/-- `NORM a` (41_normalize.md R120). -/
def execNorm (a : Accum) (s : State) : Host.Outcome State Fault Refusal := respond (replyNorm a) s

/-- What stage `i` of the pipeline hands on: its result slot `r` and its carry `q` (41_normalize.md R131). -/
structure StageOutput where
  digit : Byte
  carry : Byte
deriving DecidableEq, Repr

/-- One pipeline stage: from the original slot and the carry of the stage to its right, `t = a[i] + c`, then
`r = RTAB[t]` and `q = QTAB[t]` (41_normalize.md R131). -/
def pipelineStage (slot carryIn : Byte) : Option StageOutput :=
  match slotAdd slot carryIn with
  | some t => some ⟨rLook t, qLook t⟩
  | none => none

/-- The chain of stages over the slots from the right end leftwards, with the carry entering it: the result slots, the
leftmost first, and the carry leaving the chain (41_normalize.md R131). -/
def pipelineChain : List Byte → Byte → List Byte → Option (List Byte × Byte)
  | [], carry, digits => some (digits, carry)
  | slot :: rest, carry, digits =>
    match pipelineStage slot carry with
    | some o => pipelineChain rest o.carry (o.digit :: digits)
    | none => none

/-- The pipeline view of the squeeze: stages for slots 9 down to 1 with `c_9 = 0`, then `a'[0] = a[0] + c_0`
(41_normalize.md R131). -/
def squeezePipeline (a : Accum) : Option (List Byte) :=
  match pipelineChain (slotList a).tail.reverse 0#8 [] with
  | some (digits, carry) =>
    match slotAdd a.s0 carry with
    | some top => some (top :: digits)
    | none => none
  | none => none

end Sys2Proof.Machine
end

