-- ==== Sys2Proof/Machine/Render.lean ====
section
/-! DEFINITION. The renderer, REND (43_render.md). -/

namespace Sys2Proof.Machine

/-- The reply of `REND a` (43_render.md R160, R162). -/
def replyRend (a : Accum) : Reply := textReply (render a)

/-- `REND a` (43_render.md R160). -/
def execRend (a : Accum) (s : State) : Host.Outcome State Fault Refusal := respond (replyRend a) s

end Sys2Proof.Machine
end

