-- ==== Sys2Proof/Machine/Dispatch.lean ====
section
/-! DEFINITION. One arm per command (30_encoding.md R70). -/

namespace Sys2Proof.Machine

def exec (i : Instr) (s : State) : Host.Outcome State Fault Refusal :=
  match i with
  | .enc v => Sys2Proof.Machine.execEnc v s
  | .addl a b => Sys2Proof.Machine.execAddl a b s
  | .addn a b => Sys2Proof.Machine.execAddn a b s
  | .norm a => Sys2Proof.Machine.execNorm a s
  | .rend a => Sys2Proof.Machine.execRend a s
  | .encr v => Sys2Proof.Machine.execEncr v s

end Sys2Proof.Machine
end

