-- ==== Sys2Proof/Machine/Issue.lean ====
section
/-! DEFINITION. Taking a command word: decode, then execute or refuse (30_encoding.md R75, R79; 00_scope.md R13). -/

namespace Sys2Proof.Machine

/-- A command word with a defined opcode is executed; one with a reserved opcode is refused, "never treats it as a
no-op and never returns a value for it" (30_encoding.md R75). -/
def runCommand (cw : CommandWord) (s : State) : Host.Outcome State Fault Refusal :=
  match decode cw with
  | .command i => exec i s
  | .reserved op => .refused (.reservedOpcode op)

/-- One host action on the block (60_exceptions.md R191). -/
def performEvent (e : HostEvent) (s : State) : Host.Outcome State Fault Refusal :=
  match e with
  | .command cw => runCommand cw s
  | .reset => .next (resetBlock s)

end Sys2Proof.Machine
end

