-- ==== Sys2Proof/Machine/Step.lean ====
section
/-! DEFINITION. One step: the host's next action, whole and atomic (00_scope.md R13, 60_exceptions.md R190). -/

namespace Sys2Proof.Machine

/-- The host's next action is taken and performed; with none left the block stays idle (log entries 1, 2). -/
def step (s : State) : Host.Outcome State Fault Refusal :=
  match takeEvent s with
  | some (e, t) => performEvent e t
  | none => .next (idle s)

/-- `s` with the command word of an opcode-table row presented as the host's next action: the block fetches nothing,
the host supplies its commands (10_state.md R29, 20_memory.md R62; log entry 14). -/
def State.withFetchWord (s : State) (nbits w : Nat) : State := presentNext (tableCommandWord nbits w) s

end Sys2Proof.Machine
end

