-- ==== Sys2Proof/Machine/Accesses.lean ====
section
/-! DEFINITION. Which command reads which entries of the constant memories, and in which order (20_memory.md R54, R63).
The reads have no side effects (R53), so this is a function of the command, not state. -/

namespace Sys2Proof.Machine

/-- The address of stage `i`, the `W[i]` of that moment. Where an addition before it has overflowed `W` is unspecified
and the address is a free value (41_normalize.md R120, R124; log entry 13). -/
def stageAddress (n : Nat) (w : Option Accum) (i : Fin 10) : Byte :=
  match w with
  | some w => slotOf w i
  | none => Config.freeAddress n i

/-- The reads of the squeeze: each stage reads `QTAB` and then `RTAB`, both at its address. Every stage of the list runs
whatever the operand is, "with no iteration until convergence and no early exit" (41_normalize.md R120, R130). -/
def squeezeReads (n : Nat) : List (Fin 10) → Option Accum → List MemAccess
  | [], _ => []
  | i :: is, w =>
    .qtab (stageAddress n w i) :: .rtab (stageAddress n w i) ::
      squeezeReads n is (w.bind fun x => squeezeStage x i)

/-- The ROM reads of the scan: one per set bit, most significant first (20_memory.md R54, R63, 42_encode.md R140). -/
def scanReads (v : BitVec 32) : List MemAccess :=
  (scanOrder.filter fun k => v.getLsbD k.val).map .rom

/-- The reads a command performs, in order; `n` is the counter of draws when it is taken, which numbers its free
addresses (20_memory.md R54, R63; log entry 13). -/
def readsOf (n : Nat) : Instr → List MemAccess
  | .enc v => scanReads v ++ squeezeReads n stageOrder (lazySum v)
  | .addl _ _ => []
  | .addn a b => squeezeReads n stageOrder (addLazy a b)
  | .norm a => squeezeReads n stageOrder (some a)
  | .rend _ => []
  | .encr v => scanReads v ++ squeezeReads n stageOrder (lazySum v)

/-- A read of the ROM. -/
def isRomRead : MemAccess → Bool
  | .rom _ => true
  | .qtab _ => false
  | .rtab _ => false

/-- A read of the quotient table. -/
def isQtabRead : MemAccess → Bool
  | .rom _ => false
  | .qtab _ => true
  | .rtab _ => false

/-- A read of the remainder table. -/
def isRtabRead : MemAccess → Bool
  | .rom _ => false
  | .qtab _ => false
  | .rtab _ => true

end Sys2Proof.Machine
end

