-- ==== Sys2Proof/Machine/Cluster.lean ====
section
/-! DEFINITION. Several blocks side by side (60_exceptions.md R189): "a model of `n` instances is `n` independent copies
of the one-instance model". They share only the constant memories, which are constants of the model. -/

namespace Sys2Proof.Machine

/-- A block in a run: the state it has reached, or the reason its own run has ended. -/
abbrev Block := Host.Outcome State Fault Refusal

/-- The blocks; they have no identifiers, a place in the list is the model's way to name one (log entry 15). -/
abbrev Cluster := List Block

/-- One step of a block; a block whose run has ended stays as it is. -/
def Block.advance : Block → Block
  | .next s => step s
  | .fault r => .fault r
  | .refused r => .refused r

/-- Block `j` takes one step, the others none: what happens to it, a refusal too, is its own
(60_exceptions.md R189; log entry 15). -/
def stepBlock (c : Cluster) (j : Nat) : Cluster := c.modify j Block.advance

/-- The blocks step in the order a schedule names them, any interleaving (60_exceptions.md R189). -/
def runSchedule (js : List Nat) (c : Cluster) : Cluster := js.foldl stepBlock c

end Sys2Proof.Machine
end

