-- ==== Sys2Proof/Machine/Script.lean ====
section
/-! DEFINITION. The host's command scripts (30_encoding.md R80) and pseudo-commands (R81). A script line becomes one
command; the host copies the `acc` field of an earlier response into an operand (60_exceptions.md R191). None of this
is hardware state: names are the host's (10_state.md R28). -/

namespace Sys2Proof.Machine

/-- What the host keeps of a response under a line's name: the `acc` field, where the line keeps it, and the text
result (30_encoding.md R80, R81). -/
structure Kept where
  acc : Option (BitVec 80)
  txt : BitVec 88
  len : Byte
deriving DecidableEq, Repr

/-- The host's responses by name, the latest first (30_encoding.md R80). -/
abbrev Names := List (String × Kept)

/-- A line keeps the `acc` field of its response, but for `UTOA v`, which is "`ENCR v`, keeping only `txt` and `len`"
(30_encoding.md R81). -/
def keepsAcc : ScriptCommand → Bool
  | .enc _ => true
  | .addl _ _ => true
  | .addn _ _ => true
  | .norm _ => true
  | .rend _ => true
  | .encr _ => true
  | .zero => true
  | .pow2 _ => true
  | .dbl _ => true
  | .utoa _ => false

/-- What a line with this right side keeps of its response (30_encoding.md R80, R81). -/
def keep (c : ScriptCommand) (rw : ResponseWord) : Kept where
  acc := if keepsAcc c then some (accField rw) else none
  txt := txtField rw
  len := lenField rw

/-- `name.txt`, the text result without its terminator, none where the name is unknown (30_encoding.md R80). That it is
read by length, the first of the two ways of 60_exceptions.md R191, which can differ outside the contract of REND, is
the model's choice (DESIGN CHOICE, log entry 22). So is that it is the empty string, and not none, for an ENC, ADDL,
ADDN or NORM line, whose text a host must not take (70_reset_and_hazards.md R217; DESIGN CHOICE, log entry 23). -/
def textOf (names : Names) (r : String) : Option (List Byte) :=
  (names.lookup r).map fun k => (textBytes k.txt).take k.len.toNat

/-- `name.len`, none where the name is unknown (30_encoding.md R80). That it is 0, and not none, for an ENC, ADDL, ADDN or
NORM line, whose length a host must not take (70_reset_and_hazards.md R217), is the model's choice (DESIGN CHOICE, log
entry 23). -/
def lengthOf (names : Names) (r : String) : Option Nat := (names.lookup r).map fun k => k.len.toNat

/-- A name stands for the `acc` field of its response; none where the name is unknown or its line kept no `acc`
(log entry 20), or a literal is not one of ten bytes (30_encoding.md R80; log entry 16). -/
def operandValue (names : Names) : ScriptOperand → Option Accum
  | .literal slots => ofLiteral slots
  | .name r => ((names.lookup r).bind fun k => k.acc).map Accum.unpack

/-- A `v` operand, none where it does not fit 32 bits (30_encoding.md R80, 00_scope.md R6). -/
def inputValue (v : Nat) : Option (BitVec 32) := if fitsInput v then some (BitVec.ofNat 32 v) else none

/-- The command of a script line's right side, pseudo-commands expanded (30_encoding.md R80, R81). -/
def expand (names : Names) : ScriptCommand → Option Instr
  | .enc v => (inputValue v).map .enc
  | .addl a b => (operandValue names a).bind fun x => (operandValue names b).map (.addl x)
  | .addn a b => (operandValue names a).bind fun x => (operandValue names b).map (.addn x)
  | .norm a => (operandValue names a).map .norm
  | .rend a => (operandValue names a).map .rend
  | .encr v => (inputValue v).map .encr
  | .zero => some (.enc 0#32)
  | .pow2 k => if ScriptCommand.wellFormed (.pow2 k) then some (.enc (1#32 <<< k)) else none
  | .dbl a => (operandValue names a).map fun x => .addn x x
  | .utoa v => (inputValue v).map .encr

/-- The host issues one script line to the block and keeps what the line keeps of the response under the line's name;
none where the line is no command or the block gives no response (30_encoding.md R80, R81). -/
def runLine (l : ScriptLine) (names : Names) (s : State) : Option (Names × State) :=
  match expand names l.command with
  | some i =>
    match step (presentNext (encode i) s) with
    | .next t => t.responses.getLast?.map fun rw => ((l.name, keep l.command rw) :: names, t)
    | .fault _ => none
    | .refused _ => none
  | none => none

/-- The host issues the lines of a script in order (30_encoding.md R80). -/
def runScript : List ScriptLine → Names → State → Option (Names × State)
  | [], names, s => some (names, s)
  | l :: ls, names, s =>
    match runLine l names s with
    | some (names', s') => runScript ls names' s'
    | none => none

end Sys2Proof.Machine
end

