-- ==== Sys2Proof/Machine/Contract.lean ====
section
/-! DEFINITION. The contract of the commands and its violations CV1 to CV4 (60_exceptions.md R182, R185). CV5 and CV6
cannot be expressed: `v` has 32 bits and `txt` has 88. The hardware detects none of them (R180). -/

namespace Sys2Proof.Machine

/-- The ways a command can fall outside the contract (60_exceptions.md R182). -/
inductive Violation where
  /-- CV1, lazy-sum overflow: some `a[i] + b[i] > 255`. -/
  | lazySumOverflow
  /-- CV2, squeeze overflow: some stage input `t_i > 255`. -/
  | squeezeOverflow
  /-- CV3, unhappy operand to the renderer: some `a[i] > 9`. -/
  | unhappyOperand
  /-- CV4, reserved opcode. -/
  | reservedOpcode
deriving DecidableEq, Repr

/-- The slot-wise sums, whole where the contract of ADDL holds (40_accumulator_add.md R101). -/
def slotSums (a b : Accum) : Accum := ofSlots fun i => slotOf a i + slotOf b i

/-- The precondition of each operation; ENC and ENCR have none (40_accumulator_add.md R101, R111, 41_normalize.md
R123, 43_render.md R161, 42_encode.md R145). -/
def inContract : Instr → Bool
  | .enc _ => true
  | .addl a b => decide (lazyFits a b)
  | .addn a b => decide (lazyFits a b) && decide (squeezeFits (slotSums a b))
  | .norm a => decide (squeezeFits a)
  | .rend a => decide (happy a)
  | .encr _ => true

/-- The first violation of a decoded command in the order CV4, CV1, CV2, CV3 (60_exceptions.md R185). -/
def firstViolation : Decoded → Option Violation
  | .reserved _ => some .reservedOpcode
  | .command (.enc _) => none
  | .command (.addl a b) => if lazyFits a b then none else some .lazySumOverflow
  | .command (.addn a b) =>
    if lazyFits a b then (if squeezeFits (slotSums a b) then none else some .squeezeOverflow)
    else some .lazySumOverflow
  | .command (.norm a) => if squeezeFits a then none else some .squeezeOverflow
  | .command (.rend a) => if happy a then none else some .unhappyOperand
  | .command (.encr _) => none

/-- The reply of a command, as its meaning gives it; it depends on the command alone (10_state.md R20). -/
def replyOf : Instr → Reply
  | .enc v => replyEnc v
  | .addl a b => replyAddl a b
  | .addn a b => replyAddn a b
  | .norm a => replyNorm a
  | .rend a => replyRend a
  | .encr v => replyEncr v

end Sys2Proof.Machine
end

