-- ==== Sys2Proof/Safety.lean ====
section
/-! DEFINITION. What claims about the B2D core are stated in: canonical decimal strings, well-formed responses, a host
that keeps the contract, and the invariant of such a run. -/

namespace Sys2Proof.Safety

open Sys2Proof.Machine

/-- The canonical decimal string of `n`, most significant digit first, `"0"` for zero (43_render.md R169). -/
def decimalString (n : Nat) : List Byte :=
  if n = 0 then [Config.asciiZero]
  else (Nat.digits 10 n).reverse.map fun d => BitVec.ofNat 8 d + Config.asciiZero

/-- The state after a response that drew no free value: one response more, nothing else changed (30_encoding.md R76). -/
def answered (s : State) (rw : ResponseWord) : State := { s with responses := s.responses ++ [rw] }

/-- The state after a response that drew free values: one response more, and the counter of draws advanced
(log entry 5). -/
def answeredDrawing (s : State) (rw : ResponseWord) : State :=
  { s with responses := s.responses ++ [rw], draws := s.draws + 1 }

/-- From every state the command completes with the response `rw`, and nothing else changes. -/
def respondsWith (i : Instr) (rw : ResponseWord) : Prop := ∀ s : State, exec i s = .next (answered s rw)

/-- From every state the command completes with the accumulator `c` and no text (30_encoding.md R77). -/
def respondsAccum (i : Instr) (c : Accum) : Prop := respondsWith i (responseWord c.pack 0#88 0#8)

/-- ADDL commands chained by the host: the accumulators of the list are added one after another to `start`, each
command responding inside its contract, and the last response is `r` (70_reset_and_hazards.md R212). -/
def addlChain : Accum → List Accum → Accum → Prop
  | start, [], r => r = start
  | start, x :: xs, r => ∃ m, respondsAccum (.addl start x) m ∧ addlChain m xs r

/-- `k` steps of the machine, stopping at a refusal. -/
def runSteps (k : Nat) (s : State) : Host.Outcome State Fault Refusal := Sys2Proof.core.run k s

/-- The column sums over all 32 ROM entries, slot 0 first (70_reset_and_hazards.md R211). -/
def columnSums : List Nat := [3, 9, 33, 59, 50, 86, 97, 90, 114, 155]

/-- The squeeze stage inputs `t_i` for `v = 0xFFFFFFFF`, slot 0 first (70_reset_and_hazards.md R211). -/
def largestStageInputs : List Nat := [4, 12, 39, 64, 59, 96, 107, 102, 129, 155]

/-- A string of digit characters parsed as a decimal number (43_render.md R169). -/
def parseDecimal (chars : List Byte) : Nat :=
  chars.foldl (fun n c => 10 * n + (c - Config.asciiZero).toNat) 0

/-- An ASCII digit character (43_render.md R165). -/
def isDigitChar (c : Byte) : Bool := 0x30#8 ≤ c && c ≤ 0x39#8

/-- A rendered text: `len` digit characters with no leading zero but for `"0"` itself, then zero bytes
(43_render.md R163, R164, R166, R167). -/
def renderedText (rw : ResponseWord) : Bool :=
  1 ≤ (lenField rw).toNat && (lenField rw).toNat ≤ 10 &&
  (readByLength rw).all isDigitChar &&
  ((textBytes (txtField rw)).drop (lenField rw).toNat).all (· == Config.nul) &&
  (lenField rw == 1#8 || charAt (txtField rw) 0 != Config.asciiZero)

/-- A response of a command inside the contract: no text at all (`len = 0`, `txt = 0`), or a rendered text
(30_encoding.md R76, R77). -/
def responseWellFormed (rw : ResponseWord) : Bool :=
  (lenField rw == 0#8 && txtField rw == 0#88) || renderedText rw

/-- The host presents a defined opcode with operands inside the contract, or a reset (60_exceptions.md R191). -/
def eventInContract : HostEvent → Bool
  | .command cw => (firstViolation (decode cw)).isNone
  | .reset => true

/-- The host keeps its duties for the rest of the run, and every response so far is well formed. -/
def Inv (s : State) : Prop := s.hostEvents.all eventInContract = true ∧ s.responses.all responseWellFormed = true

end Sys2Proof.Safety
end

