-- ==== Sys2Proof/Certificates/Slice0/Obligations.lean ====
section
/-! DEFINITION. The statements for the provers. A statement about a response outside the contract names the free value
and holds for every value of `draws`; that a free value is drawn there, and not a refusal given, is the model's choice
(60_exceptions.md R184 (b), log entry 5). -/

open Sys2Proof Sys2Proof.Machine Sys2Proof.Safety

/-! ## Command and response words -/

/-- 30_encoding.md R82, its six rows: the word decodes to the command, is its encoding, and the response is the row's.
The spec marks this rule as derived, its own inference. -/
def Obligations.WorkedEncodingsDecodeAndRespond : Prop :=
  (decode 0x01000003E80000000000000000000000000000000000000000#200 = .command (.enc 1000#32) ∧
    encode (.enc 1000#32) = 0x01000003E80000000000000000000000000000000000000000#200 ∧
    respondsWith (.enc 1000#32) 0x00000000000001000000000000000000000000000000#176) ∧
  (decode 0x02000000000000000000000000000800000000000000000004#200 =
      .command (.addl ⟨0, 0, 0, 0, 0, 0, 0, 0, 0, 8⟩ ⟨0, 0, 0, 0, 0, 0, 0, 0, 0, 4⟩) ∧
    encode (.addl ⟨0, 0, 0, 0, 0, 0, 0, 0, 0, 8⟩ ⟨0, 0, 0, 0, 0, 0, 0, 0, 0, 4⟩) =
      0x02000000000000000000000000000800000000000000000004#200 ∧
    respondsWith (.addl ⟨0, 0, 0, 0, 0, 0, 0, 0, 0, 8⟩ ⟨0, 0, 0, 0, 0, 0, 0, 0, 0, 4⟩)
      0x0000000000000000000C000000000000000000000000#176) ∧
  (decode 0x03000000000000000000000000000800000000000000000004#200 =
      .command (.addn ⟨0, 0, 0, 0, 0, 0, 0, 0, 0, 8⟩ ⟨0, 0, 0, 0, 0, 0, 0, 0, 0, 4⟩) ∧
    encode (.addn ⟨0, 0, 0, 0, 0, 0, 0, 0, 0, 8⟩ ⟨0, 0, 0, 0, 0, 0, 0, 0, 0, 4⟩) =
      0x03000000000000000000000000000800000000000000000004#200 ∧
    respondsWith (.addn ⟨0, 0, 0, 0, 0, 0, 0, 0, 0, 8⟩ ⟨0, 0, 0, 0, 0, 0, 0, 0, 0, 4⟩)
      0x00000000000000000102000000000000000000000000#176) ∧
  (decode 0x0400000000000000000000000000FF00000000000000000000#200 =
      .command (.norm ⟨0, 0, 0, 0, 0, 0, 0, 0, 0, 255⟩) ∧
    encode (.norm ⟨0, 0, 0, 0, 0, 0, 0, 0, 0, 255⟩) =
      0x0400000000000000000000000000FF00000000000000000000#200 ∧
    respondsWith (.norm ⟨0, 0, 0, 0, 0, 0, 0, 0, 0, 255⟩) 0x00000000000000020505000000000000000000000000#176) ∧
  (decode 0x05000000000000000000000100000000000000000000000000#200 =
      .command (.rend ⟨0, 0, 0, 0, 0, 0, 1, 0, 0, 0⟩) ∧
    encode (.rend ⟨0, 0, 0, 0, 0, 0, 1, 0, 0, 0⟩) =
      0x05000000000000000000000100000000000000000000000000#200 ∧
    respondsWith (.rend ⟨0, 0, 0, 0, 0, 0, 1, 0, 0, 0⟩) 0x00000000000000000000313030300000000000000004#176) ∧
  (decode 0x06FFFFFFFF0000000000000000000000000000000000000000#200 = .command (.encr 4294967295#32) ∧
    encode (.encr 4294967295#32) = 0x06FFFFFFFF0000000000000000000000000000000000000000#200 ∧
    respondsWith (.encr 4294967295#32) 0x0402090409060702090534323934393637323935000A#176)

/-- 30_encoding.md R72: the masked comparison of a row selects exactly the words with the row's opcode, and what a
selected word decodes to is the row's operation on the fields the row reads. -/
def Obligations.OpcodeRowsSelectByMaskAndReadTheirFields : Prop :=
  ∀ cw : CommandWord,
    (∀ op : Byte, cw &&& (0xFF#200 <<< 192) = op.setWidth 200 <<< 192 ↔ opField cw = op) ∧
    (cw &&& (0xFF#200 <<< 192) = 0x01#200 <<< 192 → decode cw = .command (.enc (vField cw))) ∧
    (cw &&& (0xFF#200 <<< 192) = 0x02#200 <<< 192 →
      decode cw = .command (.addl (Accum.unpack (aField cw)) (Accum.unpack (bField cw)))) ∧
    (cw &&& (0xFF#200 <<< 192) = 0x03#200 <<< 192 →
      decode cw = .command (.addn (Accum.unpack (aField cw)) (Accum.unpack (bField cw)))) ∧
    (cw &&& (0xFF#200 <<< 192) = 0x04#200 <<< 192 → decode cw = .command (.norm (Accum.unpack (aField cw)))) ∧
    (cw &&& (0xFF#200 <<< 192) = 0x05#200 <<< 192 → decode cw = .command (.rend (Accum.unpack (aField cw)))) ∧
    (cw &&& (0xFF#200 <<< 192) = 0x06#200 <<< 192 → decode cw = .command (.encr (vField cw)))

/-- 30_encoding.md R79: decoding the canonical encoding of any command gives it back, every operand at every value.
The spec marks this rule as derived, its own inference. -/
def Obligations.EncodedCommandsDecodeBack : Prop :=
  ∀ i : Instr, i.wellFormed = true → decode (encode i) = .command i

/-- 30_encoding.md R79: encoding what a word decodes to gives the word back exactly when it has a defined opcode and
zero in every field its operation ignores. The spec marks this rule as derived, its own inference. -/
def Obligations.EncodingBackHoldsExactlyForCanonicalWords : Prop :=
  ∀ cw : CommandWord,
    (∃ i, decode cw = .command i ∧ encode i = cw) ↔
      ((opField cw = 0x01#8 ∨ opField cw = 0x06#8) ∧ aField cw = 0#80 ∧ bField cw = 0#80) ∨
      ((opField cw = 0x02#8 ∨ opField cw = 0x03#8) ∧ vField cw = 0#32) ∨
      ((opField cw = 0x04#8 ∨ opField cw = 0x05#8) ∧ vField cw = 0#32 ∧ bField cw = 0#80)

/-- 30_encoding.md R74: two words with the same opcode and the same fields that the operation reads step alike from
every state, and the canonical encoding has zeros in the ignored fields. -/
def Obligations.IgnoredFieldsHaveNoEffect : Prop :=
  (∀ (cw cw' : CommandWord) (s : State),
    opField cw = opField cw' →
    (opField cw = 0x01#8 ∨ opField cw = 0x06#8 → vField cw = vField cw') →
    (opField cw = 0x02#8 ∨ opField cw = 0x03#8 ∨ opField cw = 0x04#8 ∨ opField cw = 0x05#8 →
      aField cw = aField cw') →
    (opField cw = 0x02#8 ∨ opField cw = 0x03#8 → bField cw = bField cw') →
    step (presentNext cw s) = step (presentNext cw' s)) ∧
  ∀ i : Instr, isCanonical (encode i) = true

/-- 30_encoding.md R75: the decoder maps every reserved opcode to the reserved verdict and the machine refuses such a
command; that the run ends there is the refusal mark (log entry 7). That it refuses nothing else, a command outside
its contract included, is the model's choice among those of 60_exceptions.md R184 (log entry 5). -/
def Obligations.ExactlyReservedOpcodesAreRefused : Prop :=
  ∀ (cw : CommandWord) (s : State),
    ((opField cw = 0x00#8 ∨ 0x07#8 ≤ opField cw) →
      decode cw = .reserved (opField cw) ∧
      step (presentNext cw s) = .refused (.reservedOpcode (opField cw))) ∧
    (¬ (opField cw = 0x00#8 ∨ 0x07#8 ≤ opField cw) →
      (∃ i, decode cw = .command i) ∧ ∀ r, step (presentNext cw s) ≠ .refused r)

/-- 20_memory.md R55: slot `i` is bits `[79-8i : 72-8i]` of the packed field, and `unpack` is the inverse of `pack`. -/
def Obligations.PackingPutsSlotZeroInTheTopByte : Prop :=
  (∀ (a : Accum) (i : Fin 10), a.pack.extractLsb' (72 - 8 * i.val) 8 = slotOf a i) ∧
  (∀ a : Accum, Accum.unpack a.pack = a) ∧
  ∀ x : BitVec 80, (Accum.unpack x).pack = x

/-- 20_memory.md R56: character `j` occupies bits `[87-8j : 80-8j]` of the text field, and the field of the ten digits
`"4294967295"` reads as the string left to right. That the bytes behind the characters are 0x00 is 43_render.md R166,
with the code of log entry 11. -/
def Obligations.TextPackingPutsFirstCharacterInTheTopByte : Prop :=
  (∀ (chars : List Byte) (j : Fin 11), (packText chars).extractLsb' (80 - 8 * j.val) 8 = chars.getD j.val 0x00#8) ∧
  packText [0x34, 0x32, 0x39, 0x34, 0x39, 0x36, 0x37, 0x32, 0x39, 0x35] = 0x3432393439363732393500#88

/-- 30_encoding.md R76: the bits of the three fields of a response word, slot by slot and character by character, and
exactly one response for every command. That a command outside its contract gives its response with free values is the
model's choice (log entry 5). -/
def Obligations.EveryCommandYieldsOneResponseOfThreeFields : Prop :=
  (∀ (a : Accum) (txt : BitVec 88) (len : Byte),
    (∀ i : Fin 10, (responseWord a.pack txt len).extractLsb' (168 - 8 * i.val) 8 = slotOf a i) ∧
    (∀ j : Fin 11, (responseWord a.pack txt len).extractLsb' (88 - 8 * j.val) 8 = charAt txt j) ∧
    (responseWord a.pack txt len).extractLsb' 0 8 = len) ∧
  ∀ (i : Instr) (s : State), ∃ (rw : ResponseWord) (t : State),
    exec i s = .next t ∧ t.responses = s.responses ++ [rw]

/-! ## Constant memories -/

/-- 20_memory.md R41, R42: entry `k` is the ten-digit decimal expansion of `2^k`, most significant digit first, and is
happy. -/
def Obligations.RomEntriesAreThePowersOfTwo : Prop :=
  ∀ k : Fin 32,
    (∀ i : Fin 10, (slotOf (romRead k) i).toNat = 2 ^ k.val / 10 ^ (9 - i.val) % 10) ∧
    romRead k = dec10 (2 ^ k.val) ∧ val (romRead k) = 2 ^ k.val ∧ happy (romRead k)

/-- 20_memory.md R45, R46: the carry tables are quotient and remainder by ten for every byte, within their ranges. The
spec marks the last equation as derived, its own inference. -/
def Obligations.CarryTablesAreQuotientAndRemainderByTen : Prop :=
  ∀ b : Byte,
    (qLook b).toNat = b.toNat / 10 ∧ (qLook b).toNat ≤ 25 ∧
    (rLook b).toNat = b.toNat % 10 ∧ (rLook b).toNat ≤ 9 ∧
    b.toNat = 10 * (qLook b).toNat + (rLook b).toNat

/-- 20_memory.md R54, R63, 41_normalize.md R120, R130 and 42_encode.md R140: ADDL and REND read nothing; NORM and ADDN
read each carry table nine times, ENC and ENCR too, and the ROM once per set bit, for every operand, inside and
outside the contract. NORM reads both tables at `t_9`, ..., `t_1` in that order, ADDN as NORM on the lazy sum; ENC and
ENCR read `ROM[k]` for each set bit `k`, the most significant first, and then as NORM on the lazy sum. The spec marks
R54 as derived, its own inference. That an address after an overflow is a free value is the model's choice (log entry
13). -/
def Obligations.CommandsReadTheMemoriesAsOften : Prop :=
  (∀ n a b, readsOf n (.addl a b) = []) ∧ (∀ n a, readsOf n (.rend a) = []) ∧
  (∀ n a, readsOf n (.norm a) = [9, 8, 7, 6, 5, 4, 3, 2, 1].flatMap fun i : Fin 10 =>
    if ∀ j, i ≤ j → stageInput a j ≤ 255
    then [.qtab (BitVec.ofNat 8 (stageInput a i)), .rtab (BitVec.ofNat 8 (stageInput a i))]
    else [.qtab (Config.freeAddress n i), .rtab (Config.freeAddress n i)]) ∧
  (∀ n a b w, (∀ i, (slotOf w i).toNat = (slotOf a i).toNat + (slotOf b i).toNat) →
    readsOf n (.addn a b) = readsOf n (.norm w)) ∧
  (∀ n a b, (∃ i, 255 < (slotOf a i).toNat + (slotOf b i).toNat) →
    readsOf n (.addn a b) = [9, 8, 7, 6, 5, 4, 3, 2, 1].flatMap fun i : Fin 10 =>
      [.qtab (Config.freeAddress n i), .rtab (Config.freeAddress n i)]) ∧
  (∀ (n : Nat) (v : BitVec 32), ∃ w, lazySum v = some w ∧
    readsOf n (.enc v) =
      (((List.finRange 32).reverse.filter fun k => v.getLsbD k.val).map fun k => .rom k) ++ readsOf n (.norm w) ∧
    readsOf n (.encr v) = readsOf n (.enc v)) ∧
  ∀ (n : Nat) (i : Instr),
    ((∃ a b, i = .addn a b) ∨ (∃ a, i = .norm a) →
      (readsOf n i).countP isRomRead = 0 ∧ (readsOf n i).countP isQtabRead = 9 ∧
      (readsOf n i).countP isRtabRead = 9) ∧
    ∀ v : BitVec 32, i = .enc v ∨ i = .encr v →
      (readsOf n i).countP isRomRead = (Finset.univ.filter fun k : Fin 32 => v.getLsbD k.val = true).card ∧
      (readsOf n i).countP isQtabRead = 9 ∧ (readsOf n i).countP isRtabRead = 9

/-! ## Steps, reset, and the machine as a whole -/

/-- When the host's next action is a command word that decodes to `i`, a step is `exec i` on the state with that action
taken off. -/
def Obligations.StepRunsTheDecodedCommand : Prop :=
  ∀ (s : State) (cw : CommandWord) (rest : List HostEvent) (i : Instr),
    s.hostEvents = .command cw :: rest → decode cw = .command i → step s = exec i { s with hostEvents := rest }

/-- 60_exceptions.md R180: a step never faults. It answers a next state unless a reserved opcode is presented: that a
reserved opcode stops is log entry 7, that a command outside its contract completes and is not refused is the model's
choice under R184 (log entry 5), and that an idle block steps to itself is log entry 2. -/
def Obligations.StepFaultsNeverAndStopsOnlyOnReservedOpcodes : Prop :=
  ∀ s : State,
    (∀ f, step s ≠ .fault f) ∧
    ((¬ ∃ t, step s = .next t) ↔
      ∃ (cw : CommandWord) (rest : List HostEvent), s.hostEvents = .command cw :: rest ∧
        (opField cw = 0x00#8 ∨ 0x07#8 ≤ opField cw))

/-- 70_reset_and_hazards.md R200: a reset returns the block to idle, and the state right after reset is idle. That the
host's later actions and the counter of draws stay is the model's choice (log entries 1, 4). -/
def Obligations.ResetReturnsTheBlockToIdle : Prop :=
  (∀ (s : State) (rest : List HostEvent), s.hostEvents = .reset :: rest →
    step s = .next { hostEvents := rest, responses := [], draws := s.draws }) ∧
  State.reset.hostEvents = [] ∧ State.reset.responses = [] ∧ step State.reset = .next State.reset

/-- 70_reset_and_hazards.md R203: the first command after a reset responds as in any other state, whatever the block
did before. That a reset keeps the host's later actions and the counter of draws is the model's choice (log entry 4).
-/
def Obligations.FirstCommandAfterResetBehavesLikeAnyOther : Prop :=
  ∀ i : Instr, inContract i = true → ∃ rw, respondsWith i rw ∧
    ∀ (s : State) (rest : List HostEvent), s.hostEvents = .reset :: .command (encode i) :: rest →
      runSteps 2 s = .next { hostEvents := rest, responses := [rw], draws := s.draws }

/-- 60_exceptions.md R190, 20_memory.md R59 (a): commands presented in a row complete one at a time in that order, and
the responses are the per-command functions applied in order. Lists with a command outside its contract are left out
here. The list of host actions is log entry 1. -/
def Obligations.CommandsCompleteInTheOrderPresented : Prop :=
  ∀ is : List Instr, (∀ i ∈ is, inContract i = true) →
    ∃ rws : List ResponseWord, List.Forall₂ respondsWith is rws ∧
      ∀ (s : State) (rest : List HostEvent),
        s.hostEvents = (is.map fun i => HostEvent.command (encode i)) ++ rest →
        runSteps is.length s = .next { s with hostEvents := rest, responses := s.responses ++ rws }

/-- The frame of all six commands: from every state each completes with one response more, the host's later actions
and all earlier responses unchanged, and the counter of draws moved by at most one, and not at all inside the
contract. Drawing is the model's choice (log entry 5). -/
def Obligations.CommandsChangeNothingButTheirResponse : Prop :=
  ∀ (i : Instr) (s : State), ∃ (rw : ResponseWord) (d : Nat),
    exec i s = .next { hostEvents := s.hostEvents, responses := s.responses ++ [rw], draws := s.draws + d } ∧
    d ≤ 1 ∧ (inContract i = true → d = 0)

/-- 10_state.md R20: inside the contract the response is a function of the command alone, the same from every state. -/
def Obligations.ResponseDependsOnTheCommandAlone : Prop :=
  ∀ i : Instr, inContract i = true → ∃ rw, ∀ s : State, exec i s = .next (answered s rw)

/-- 60_exceptions.md R183: the command after a violating one behaves exactly as if the violation had not happened.
Drawing is the model's choice (log entry 5). -/
def Obligations.ViolationLeavesNoTraceInLaterResponses : Prop :=
  ∀ i j : Instr, inContract i = false → inContract j = true → ∃ rw, ∀ s : State,
    exec j s = .next (answered s rw) ∧
    ∃ t, exec i s = .next t ∧ exec j t = .next (answered t rw)

/-- 30_encoding.md R77, R78: ENC, ADDL, ADDN and NORM respond with no text, REND with a zero accumulator, inside and
outside the contract; a rendered length is never 0. That a command outside its contract completes is the model's
choice under 60_exceptions.md R184 (log entry 5). -/
def Obligations.FieldsNotProducedAreZero : Prop :=
  (∀ (i : Instr) (s : State),
    (∃ v, i = .enc v) ∨ (∃ a b, i = .addl a b) ∨ (∃ a b, i = .addn a b) ∨ (∃ a, i = .norm a) →
    ∃ (rw : ResponseWord) (t : State), exec i s = .next t ∧ t.responses = s.responses ++ [rw] ∧
      txtField rw = 0#88 ∧ lenField rw = 0#8) ∧
  (∀ (a : Accum) (s : State), ∃ (rw : ResponseWord) (t : State),
    exec (.rend a) s = .next t ∧ t.responses = s.responses ++ [rw] ∧ accField rw = 0#80) ∧
  ∀ i : Instr, (∃ v, i = .encr v) ∨ (∃ a, happy a ∧ i = .rend a) →
    ∃ rw, respondsWith i rw ∧ 1 ≤ (lenField rw).toNat ∧ (lenField rw).toNat ≤ 10

/-- 60_exceptions.md R182, R185: the condition of each violation CV1 to CV4, recorded in the order CV4, CV1, CV2, CV3;
a command word meets none exactly when it decodes to a command whose reply has every field specified; and every
command's outcome is its reply. Drawing is the model's choice (log entry 5). -/
def Obligations.ViolationsAreExactlyTheUnspecifiedReplies : Prop :=
  (∀ cw : CommandWord,
    (firstViolation (decode cw) = some .reservedOpcode ↔ (opField cw = 0x00#8 ∨ 0x07#8 ≤ opField cw)) ∧
    (firstViolation (decode cw) = none ↔ ∃ i, decode cw = .command i ∧ (replyOf i).specified = true)) ∧
  (∀ a b, firstViolation (.command (.addl a b)) = some .lazySumOverflow ↔
    ∃ i, 255 < (slotOf a i).toNat + (slotOf b i).toNat) ∧
  (∀ a b, firstViolation (.command (.addn a b)) = some .lazySumOverflow ↔
    ∃ i, 255 < (slotOf a i).toNat + (slotOf b i).toNat) ∧
  (∀ a b w, (∀ i, (slotOf w i).toNat = (slotOf a i).toNat + (slotOf b i).toNat) →
    (firstViolation (.command (.addn a b)) = some .squeezeOverflow ↔ ∃ i, 255 < stageInput w i)) ∧
  (∀ a, firstViolation (.command (.norm a)) = some .squeezeOverflow ↔ ∃ i, 255 < stageInput a i) ∧
  (∀ a, firstViolation (.command (.rend a)) = some .unhappyOperand ↔ ∃ i, 9 < (slotOf a i).toNat) ∧
  (∀ i : Instr, firstViolation (.command i) = none ↔ inContract i = true) ∧
  ∀ (i : Instr) (s : State), exec i s = respond (replyOf i) s

/-- A host that keeps its duties meets no refusal: under the invariant every step answers a next state. -/
def Obligations.ContractKeepingHostIsNeverRefused : Prop :=
  ∀ s : State, Inv s → ∃ t, step s = .next t

/-- The invariant holds right after reset. -/
def Obligations.InvariantHoldsAtReset : Prop := Inv State.reset

/-- Every step keeps the invariant: a host inside the contract gets only well-formed responses. -/
def Obligations.StepKeepsTheInvariant : Prop :=
  ∀ s t : State, Inv s → step s = .next t → Inv t

/-- 60_exceptions.md R189: in any interleaving of several blocks each one comes to exactly what it comes to when it
runs alone for its own steps, whatever becomes of the others: a block that is refused stops alone. The spec marks this
as derived, its own inference. The list of blocks is log entry 15. For commands outside the contract it compares the
free values of one block in two runs, which log entry 15 calls unsafe. -/
def Obligations.InterleavedBlocksRunAsIfAlone : Prop :=
  ∀ (js : List Nat) (ss : List State) (j : Nat),
    getElem? (runSchedule js (ss.map .next)) j = (getElem? ss j).map (runSteps (js.count j))

/-! ## Slot addition, ADDL and ADDN -/

/-- 00_scope.md R12: slot addition is the exact sum where it is at most 255, and unspecified otherwise. -/
def Obligations.SlotAdditionIsExactOrUnspecified : Prop :=
  ∀ x y : Byte,
    (x.toNat + y.toNat ≤ 255 → ∃ z, slotAdd x y = some z ∧ z.toNat = x.toNat + y.toNat) ∧
    (255 < x.toNat + y.toNat → slotAdd x y = none)

/-- 40_accumulator_add.md R101: under the no-overflow contract ADDL completes with the exact slot sums. -/
def Obligations.AddlGivesTheExactSlotSums : Prop :=
  ∀ a b : Accum, (∀ i, (slotOf a i).toNat + (slotOf b i).toNat ≤ 255) →
    ∃ c, (∀ i, (slotOf c i).toNat = (slotOf a i).toNat + (slotOf b i).toNat) ∧ respondsAccum (.addl a b) c

/-- 40_accumulator_add.md R102: where one slot overflows ADDL completes, all of `acc` is free and the text is zero.
Drawing is the model's choice (log entry 5). -/
def Obligations.AddlOutsideTheContractDrawsItsAccumulator : Prop :=
  ∀ (a b : Accum) (s : State), (∃ i, 255 < (slotOf a i).toNat + (slotOf b i).toNat) →
    exec (.addl a b) s = .next (answeredDrawing s (responseWord (Config.freeAcc s.draws) 0#88 0#8))

/-- 40_accumulator_add.md R103: ADDL adds the numbers, commutes, associates where the triple sums fit, and has
`ZERO10` as its neutral element. The spec marks this rule as derived, its own inference. -/
def Obligations.AddlLaws : Prop :=
  (∀ a b : Accum, (∀ i, (slotOf a i).toNat + (slotOf b i).toNat ≤ 255) →
    ∃ c, respondsAccum (.addl a b) c ∧ respondsAccum (.addl b a) c ∧ val c = val a + val b) ∧
  (∀ a b c : Accum, (∀ i, (slotOf a i).toNat + (slotOf b i).toNat + (slotOf c i).toNat ≤ 255) →
    ∃ ab bc r, respondsAccum (.addl a b) ab ∧ respondsAccum (.addl ab c) r ∧
      respondsAccum (.addl b c) bc ∧ respondsAccum (.addl a bc) r) ∧
  ∀ a : Accum, respondsAccum (.addl a zero10) a

/-- 70_reset_and_hazards.md R212: at most 28 happy accumulators may be summed lazily, starting from zero. The spec
marks this rule as derived, its own inference. -/
def Obligations.TwentyEightHappyAddendsSumLazily : Prop :=
  ∀ xs : List Accum, xs.length ≤ 28 → (∀ x ∈ xs, happy x) →
    ∃ r, addlChain zero10 xs r ∧ val r = (xs.map val).sum

/-- 40_accumulator_add.md R110: ADDN completes with `c` inside the contract exactly when ADDL completes with a lazy sum
and NORM completes on that with `c`. -/
def Obligations.AddnIsNormAfterAddl : Prop :=
  ∀ a b c : Accum, respondsAccum (.addn a b) c ↔
    ∃ w, respondsAccum (.addl a b) w ∧ respondsAccum (.norm w) c

/-- 40_accumulator_add.md R112: under its precondition ADDN completes with the sum of the two numbers, slots 1 to 9
happy, the whole result happy exactly below `10^10` and `dec10` of the sum exactly there; two happy operands that
stand for 32-bit numbers always give a happy result. The spec marks this rule as derived, its own inference. What
`dec10` is at `10^10` and above, where one clause compares with it, is the model's choice (log entry 19). -/
def Obligations.AddnGivesTheNormalizedSum : Prop :=
  (∀ a b w : Accum, (∀ i, (slotOf w i).toNat = (slotOf a i).toNat + (slotOf b i).toNat) →
    (∀ i, stageInput w i ≤ 255) →
    ∃ c, respondsAccum (.addn a b) c ∧ val c = val a + val b ∧ (∀ i, i ≠ 0 → (slotOf c i).toNat ≤ 9) ∧
      (happy c ↔ val a + val b < 10 ^ 10) ∧ (c = dec10 (val a + val b) ↔ val a + val b < 10 ^ 10)) ∧
  ∀ a b : Accum, happy a → happy b → val a < 2 ^ 32 → val b < 2 ^ 32 →
    ∃ c, respondsAccum (.addn a b) c ∧ happy c ∧ c = dec10 (val a + val b)

/-- 40_accumulator_add.md R111: ADDN outside either precondition completes with a free accumulator and no text; slot
sums of at most 230 are enough for both preconditions. Drawing is the model's choice (log entry 5), that it is one
draw is log entry 8, and the last clause is the spec's inference. -/
def Obligations.AddnPreconditionAndWhatHappensOutsideIt : Prop :=
  (∀ (a b : Accum) (s : State), (∃ i, 255 < (slotOf a i).toNat + (slotOf b i).toNat) →
    exec (.addn a b) s = .next (answeredDrawing s (responseWord (Config.freeAcc s.draws) 0#88 0#8))) ∧
  (∀ (a b w : Accum) (s : State), (∀ i, (slotOf w i).toNat = (slotOf a i).toNat + (slotOf b i).toNat) →
    (∃ i, 255 < stageInput w i) →
    exec (.addn a b) s = .next (answeredDrawing s (responseWord (Config.freeAcc s.draws) 0#88 0#8))) ∧
  ∀ a b : Accum, (∀ i, (slotOf a i).toNat + (slotOf b i).toNat ≤ 230) → ∃ c, respondsAccum (.addn a b) c

/-! ## NORM -/

/-- 41_normalize.md R123: the stage inputs, and NORM inside its contract exactly when all of them fit a byte. The spec
marks this rule as derived, its own inference. -/
def Obligations.NormPreconditionIsTheStageInputs : Prop :=
  ∀ a : Accum,
    stageInput a 9 = (slotOf a 9).toNat ∧
    (∀ i : Fin 9, stageInput a i.castSucc = (slotOf a i.castSucc).toNat + stageInput a i.succ / 10) ∧
    ((∃ c, respondsAccum (.norm a) c) ↔ ∀ i, stageInput a i ≤ 255)

/-- 41_normalize.md R124: where a stage input overflows NORM completes, all of `acc` is free and the text is zero.
Drawing is the model's choice (log entry 5). -/
def Obligations.NormOutsideTheContractDrawsItsAccumulator : Prop :=
  ∀ (a : Accum) (s : State), (∃ i, 255 < stageInput a i) →
    exec (.norm a) s = .next (answeredDrawing s (responseWord (Config.freeAcc s.draws) 0#88 0#8))

/-- 41_normalize.md R126: the closed form of NORM, and that it keeps the number. The spec marks this rule as derived,
its own inference. -/
def Obligations.NormClosedForm : Prop :=
  ∀ a : Accum, (∀ i, stageInput a i ≤ 255) →
    ∃ c, respondsAccum (.norm a) c ∧ (∀ i, i ≠ 0 → (slotOf c i).toNat = stageInput a i % 10) ∧
      (slotOf c 0).toNat = stageInput a 0 ∧ val c = val a

/-- 41_normalize.md R127: slots 1 to 9 of the result are happy, slot 0 is `floor(val(a) / 10^9)`, and the result is
happy, and then `dec10(val(a))`, exactly when `val(a) < 10^10`. The spec marks this rule as derived, its own
inference. -/
def Obligations.NormResultIsHappyExactlyBelowTenToTheTenth : Prop :=
  ∀ a : Accum, (∀ i, stageInput a i ≤ 255) →
    ∃ c, respondsAccum (.norm a) c ∧ (∀ i, i ≠ 0 → (slotOf c i).toNat ≤ 9) ∧
      (slotOf c 0).toNat = val a / 10 ^ 9 ∧ (happy c ↔ val a < 10 ^ 10) ∧
      (val a < 10 ^ 10 → c = dec10 (val a))

/-- 41_normalize.md R128: slot 0 is never divided; for `val(a) >= 10^10` inside the contract the result is defined and
unhappy in slot 0 only, as in the rule's example; for every lazy sum that ENC builds, `t_0 <= 4`. That the number is
kept is R126's, which the spec marks as derived, its own inference. -/
def Obligations.NormLeavesSlotZeroUndivided : Prop :=
  (∀ a : Accum, (∀ i, stageInput a i ≤ 255) → 10 ^ 10 ≤ val a →
    10 ≤ stageInput a 0 ∧
    ∃ c, respondsAccum (.norm a) c ∧ (slotOf c 0).toNat = stageInput a 0 ∧ ¬ happy c ∧
      (∀ i, i ≠ 0 → (slotOf c i).toNat ≤ 9) ∧ val c = val a) ∧
  respondsAccum (.norm ⟨9, 9, 9, 9, 9, 9, 9, 9, 9, 10⟩) ⟨10, 0, 0, 0, 0, 0, 0, 0, 0, 0⟩ ∧
  ∀ v : BitVec 32, ∃ w, lazySum v = some w ∧ stageInput w 0 ≤ 4

/-- 41_normalize.md R129: NORM is the identity on happy accumulators and idempotent inside its contract. The spec
marks this rule as derived, its own inference. -/
def Obligations.NormIsIdentityOnHappyAndIdempotent : Prop :=
  (∀ a : Accum, happy a → respondsAccum (.norm a) a) ∧
  ∀ a c : Accum, respondsAccum (.norm a) c → respondsAccum (.norm c) c

/-- 41_normalize.md R125: slots of at most 230 are enough for the precondition of NORM. The spec marks this rule as
derived, its own inference. -/
def Obligations.SlotsUpTo230MeetTheNormPrecondition : Prop :=
  ∀ a : Accum, (∀ i, (slotOf a i).toNat ≤ 230) →
    (∀ i, stageInput a i ≤ 255) ∧ ∃ c, respondsAccum (.norm a) c

/-- 41_normalize.md R131: the pipeline of nine stages, with the data passing through the carries only, computes the
squeeze, and is unspecified exactly where the squeeze is. The spec marks this rule as derived, its own inference. -/
def Obligations.PipelineOfStagesEqualsTheSqueeze : Prop :=
  ∀ a : Accum, squeezePipeline a = (squeeze a).map slotList

/-- 70_reset_and_hazards.md R213: after at most 25 lazy additions of happy values the squeeze is inside its contract
and gives the sum; 26 all-nines addends put it outside. The spec marks this rule as derived, its own inference. -/
def Obligations.SqueezeIsSafeAfterTwentyFiveHappyAddends : Prop :=
  (∀ xs : List Accum, xs.length ≤ 25 → (∀ x ∈ xs, happy x) →
    ∃ r n, addlChain zero10 xs r ∧ respondsAccum (.norm r) n ∧ val n = (xs.map val).sum) ∧
  ∃ r, addlChain zero10 (List.replicate 26 ⟨9, 9, 9, 9, 9, 9, 9, 9, 9, 9⟩) r ∧
    ¬ ∃ n, respondsAccum (.norm r) n

/-! ## ENC and ENCR -/

/-- 42_encode.md R146: for every `v` ENC completes with the ten decimal digits of `v`. The spec proves this rule by a
chain it marks as derived: it is the spec's own inference. -/
def Obligations.EncGivesTheDecimalDigits : Prop :=
  ∀ v : BitVec 32, ∃ c, respondsAccum (.enc v) c ∧ c = dec10 v.toNat ∧
    (∀ i : Fin 10, (slotOf c i).toNat = v.toNat / 10 ^ (9 - i.val) % 10) ∧
    happy c ∧ val c = v.toNat ∧ (slotOf c 0).toNat ≤ 4

/-- 70_reset_and_hazards.md R211: the four rows of figures of the ROM's columns, and that no point of any scan, in any
order, holds a slot above its column sum, nor any squeeze stage input above the figure for the all-ones input. The
spec marks this rule as derived, its own inference. -/
def Obligations.NoEncViolatesTheOverflowContract : Prop :=
  (∀ i : Fin 10, ∑ k : Fin 32, (slotOf (romRead k) i).toNat = columnSums.getD i.val 0) ∧
  (List.finRange 10).map (fun i => (Finset.univ.filter fun k : Fin 32 => slotOf (romRead k) i ≠ 0#8).card) =
    [2, 4, 8, 12, 13, 17, 21, 21, 26, 32] ∧
  (∃ w, lazySum 0xFFFFFFFF#32 = some w ∧
    (∀ i : Fin 10, (slotOf w i).toNat = columnSums.getD i.val 0) ∧
    (∀ i : Fin 10, stageInput w i = largestStageInputs.getD i.val 0)) ∧
  respondsAccum (.enc 0xFFFFFFFF#32) ⟨4, 2, 9, 4, 9, 6, 7, 2, 9, 5⟩ ∧
  (∀ (v : BitVec 32) (ks : List (Fin 32)), ks.Nodup →
    ∃ w, scanFrom v ks zero10 = some w ∧ ∀ i : Fin 10, (slotOf w i).toNat ≤ columnSums.getD i.val 0) ∧
  ∀ v : BitVec 32, ∃ w, lazySum v = some w ∧
    (∀ i : Fin 10, stageInput w i ≤ largestStageInputs.getD i.val 0)

/-- 42_encode.md R143: every order of the 32 positions gives the same lazy sum, in which each slot is the sum of the
selected digits of its column, and after any positions in any order no slot is above 155. The bound of 155 rests on
R145, which the spec marks as derived, its own inference. -/
def Obligations.ScanOrderIsNotObservable : Prop :=
  ∀ v : BitVec 32,
    (∃ w,
      (∀ ks : List (Fin 32), ks.Perm scanOrder → scanFrom v ks zero10 = some w) ∧
      ∀ i : Fin 10, (slotOf w i).toNat =
        ∑ k : Fin 32, if v.getLsbD k.val = true then (slotOf (romRead k) i).toNat else 0) ∧
    ∀ ks : List (Fin 32), ks.Nodup →
      ∃ w, scanFrom v ks zero10 = some w ∧ ∀ i : Fin 10, (slotOf w i).toNat ≤ 155

/-- 42_encode.md R148: the encoding of each power of two is its ROM entry, and NORM leaves a ROM entry alone. -/
def Obligations.EncOfPowersOfTwoGivesTheRomEntries : Prop :=
  ∀ k : Fin 32, respondsAccum (.enc (BitVec.ofNat 32 (2 ^ k.val))) (romRead k) ∧
    respondsAccum (.norm (romRead k)) (romRead k)

/-- 42_encode.md R150: ENCR responds with the accumulator of ENC and with the text and length REND gives for it. -/
def Obligations.EncrIsRendAfterEnc : Prop :=
  ∀ v : BitVec 32, ∃ (w : Accum) (txt : BitVec 88) (len : Byte),
    respondsAccum (.enc v) w ∧ happy w ∧ respondsWith (.rend w) (responseWord 0#80 txt len) ∧
    respondsWith (.encr v) (responseWord w.pack txt len)

/-- 42_encode.md R151: ENCR responds with `dec10(v)`, the canonical decimal string of `v`, a terminator and zero bytes
behind it, and the number of digits; the string parses back to `v`. The spec marks this rule as derived, its own
inference. The character codes are log entry 11. -/
def Obligations.EncrGivesTheDecimalString : Prop :=
  ∀ v : BitVec 32, ∃ rw, respondsWith (.encr v) rw ∧
    accField rw = (dec10 v.toNat).pack ∧
    readByLength rw = decimalString v.toNat ∧
    (lenField rw).toNat = (decimalString v.toNat).length ∧
    1 ≤ (lenField rw).toNat ∧ (lenField rw).toNat ≤ 10 ∧
    (∀ j : Fin 11, (lenField rw).toNat ≤ j.val → charAt (txtField rw) j = 0x00#8) ∧
    parseDecimal (readByLength rw) = v.toNat

/-! ## REND -/

/-- 43_render.md R163 to R167: REND of `ZERO10` is `"0"` with length 1; of another happy accumulator with `z` leading
zero slots it is the codes of slots `z` to 9, left to right, with length `10 - z`, and zero bytes behind. The
character codes are log entry 11. -/
def Obligations.RendEmitsTheDigitsFromTheFirstNonZeroSlot : Prop :=
  respondsWith (.rend zero10) (responseWord 0#80 0x3000000000000000000000#88 1#8) ∧
  ∀ (a : Accum) (z : Fin 10), happy a → (∀ i : Fin 10, i < z → slotOf a i = 0#8) → slotOf a z ≠ 0#8 →
    ∃ (txt : BitVec 88) (len : Byte), respondsWith (.rend a) (responseWord 0#80 txt len) ∧
      len.toNat = 10 - z.val ∧
      (∀ (i : Fin 10) (j : Fin 11), z ≤ i → j.val = i.val - z.val →
        (charAt txt j).toNat = (slotOf a i).toNat + 0x30) ∧
      ∀ j : Fin 11, 10 - z.val ≤ j.val → charAt txt j = 0x00#8

/-- 43_render.md R169: for a happy operand the characters are the canonical decimal string of `val(a)`, the length is
its number of digits, and parsing it back gives `val(a)`. The spec marks this rule as derived, its own inference. The
character codes are log entry 11. -/
def Obligations.RendGivesTheCanonicalDecimalString : Prop :=
  ∀ a : Accum, happy a → ∃ rw, respondsWith (.rend a) rw ∧ accField rw = 0#80 ∧
    readByLength rw = decimalString (val a) ∧
    (lenField rw).toNat = (decimalString (val a)).length ∧
    parseDecimal (readByLength rw) = val a

/-- 43_render.md R162: REND of an unhappy accumulator completes, `txt` and `len` are free and `acc` is zero. Drawing
is the model's choice (log entry 5). -/
def Obligations.RendOutsideTheContractDrawsItsText : Prop :=
  ∀ (a : Accum) (s : State), (∃ i, 9 < (slotOf a i).toNat) →
    exec (.rend a) s = .next (answeredDrawing s
      (responseWord 0#80 (Config.freeTxt s.draws) (Config.freeLen s.draws)))

/-- 60_exceptions.md R191: reading `len` characters and reading up to the first zero byte give the same string, for
every text REND or ENCR renders inside the contract. The character codes are log entry 11. -/
def Obligations.BothWaysToReadATextAgree : Prop :=
  ∀ i : Instr, (∃ v, i = .encr v) ∨ (∃ a, happy a ∧ i = .rend a) →
    ∃ rw, respondsWith i rw ∧ readByLength rw = readToTerminator rw

/-! ## Host notation -/

/-- 30_encoding.md R81: the pseudo-commands expand as the table says, with the results it gives; a `UTOA` line keeps
the text, the decimal string of `v`, and its length, and no `acc`. That a name without `acc` is no operand is log
entry 20, and the character codes are log entry 11. -/
def Obligations.PseudoCommandsExpandAsListed : Prop :=
  ∀ names : Names,
    (expand names .zero = some (.enc 0#32) ∧ respondsAccum (.enc 0#32) zero10) ∧
    (∀ k : Fin 32, ∃ i, expand names (.pow2 k.val) = some i ∧ i = .enc (1#32 <<< k.val) ∧
      respondsAccum i (romRead k)) ∧
    (∀ (o : ScriptOperand) (a : Accum), operandValue names o = some a →
      expand names (.dbl o) = some (.addn a a) ∧
      (inContract (.addn a a) = true → 2 * val a < 10 ^ 10 → respondsAccum (.addn a a) (dec10 (2 * val a)))) ∧
    ∀ v : BitVec 32, expand names (.utoa v.toNat) = some (.encr v) ∧
      ∃ rw, respondsWith (.encr v) rw ∧ readByLength rw = decimalString v.toNat ∧
        ∀ (r : String) (s : State), ∃ names' : Names,
          runLine ⟨r, .utoa v.toNat⟩ names s = some (names', answered s rw) ∧
          textOf names' r = some (decimalString v.toNat) ∧
          lengthOf names' r = some (decimalString v.toNat).length ∧
          operandValue names' (.name r) = none

/-- 30_encoding.md R80, R81: a script line that expands to a command runs it and adds its one response, inside and
outside the contract; under the line's name the host keeps the text result and, unless the line is `UTOA`, the `acc`
field, for which the name then stands; the host's other names and its later actions stay. A line that expands to no
command does nothing. The script layer is log entry 16, that a name without `acc` is no operand is log entry 20, that
`name.txt` is read by length is log entry 22, what `name.txt` and `name.len` are for a line without a text is log
entry 23, and that a command outside its contract completes is log entry 5. -/
def Obligations.ScriptLineNamesItsResponse : Prop :=
  ∀ (l : ScriptLine) (names : Names) (s : State),
    (expand names l.command = none → runLine l names s = none) ∧
    ∀ i : Instr, expand names l.command = some i →
      ∃ (rw : ResponseWord) (d : Nat) (names' : Names),
        exec i s = .next { s with responses := s.responses ++ [rw], draws := s.draws + d } ∧
        runLine l names s =
          some (names', { s with responses := s.responses ++ [rw], draws := s.draws + d }) ∧
        (inContract i = true → d = 0 ∧ respondsWith i rw) ∧
        ((∀ v, l.command ≠ .utoa v) →
          operandValue names' (.name l.name) = some (Accum.unpack (accField rw))) ∧
        ((∃ v, l.command = .utoa v) → operandValue names' (.name l.name) = none) ∧
        textOf names' l.name = some (readByLength rw) ∧ lengthOf names' l.name = some (lenField rw).toNat ∧
        ∀ r, r ≠ l.name →
          operandValue names' (.name r) = operandValue names (.name r) ∧ textOf names' r = textOf names r ∧
          lengthOf names' r = lengthOf names r
end

