-- ==== Sys2Proof/Laws/Accesses.lean ====
section
/-! SUPPORT. The reads of the squeeze: their number does not depend on the operand (20_memory.md R54,
41_normalize.md R130). -/

namespace Sys2Proof.Laws

open Sys2Proof.Machine

@[simp] theorem stageAddress_some (n : Nat) (w : Accum) (i : Fin 10) : stageAddress n (some w) i = slotOf w i := rfl

@[simp] theorem stageAddress_none (n : Nat) (i : Fin 10) : stageAddress n none i = Config.freeAddress n i := rfl

@[simp] theorem squeezeReads_nil (n : Nat) (w : Option Accum) : squeezeReads n [] w = [] := rfl

theorem squeezeReads_cons (n : Nat) (i : Fin 10) (is : List (Fin 10)) (w : Option Accum) :
    squeezeReads n (i :: is) w =
      .qtab (stageAddress n w i) :: .rtab (stageAddress n w i) ::
        squeezeReads n is (w.bind fun x => squeezeStage x i) := rfl

/-- On an unspecified accumulator every address is free. -/
theorem squeezeReads_none (n : Nat) (is : List (Fin 10)) :
    squeezeReads n is none =
      is.flatMap fun i => [.qtab (Config.freeAddress n i), .rtab (Config.freeAddress n i)] := by
  induction is with
  | nil => rfl
  | cons i is ih => simp [squeezeReads_cons, ih]

/-- One read of each carry table per stage, and none of the ROM. -/
theorem countP_squeezeReads (n : Nat) (is : List (Fin 10)) (w : Option Accum) :
    (squeezeReads n is w).countP isRomRead = 0 ∧
    (squeezeReads n is w).countP isQtabRead = is.length ∧
    (squeezeReads n is w).countP isRtabRead = is.length := by
  induction is generalizing w with
  | nil => exact ⟨rfl, rfl, rfl⟩
  | cons i is ih =>
    obtain ⟨h1, h2, h3⟩ := ih (w.bind fun x => squeezeStage x i)
    simp [squeezeReads_cons, List.countP_cons, isRomRead, isQtabRead, isRtabRead, h1, h2, h3]

end Sys2Proof.Laws
end

