-- ==== Sys2Proof/Laws/Cluster.lean ====
section
/-! SUPPORT. What one step of one block does to the others: nothing (60_exceptions.md R189). -/

namespace Sys2Proof.Laws

open Sys2Proof.Machine

@[simp] theorem advance_next (s : State) : Block.advance (.next s) = step s := rfl

@[simp] theorem advance_fault (r : Fault) : Block.advance (.fault r) = .fault r := rfl

@[simp] theorem advance_refused (r : Refusal) : Block.advance (.refused r) = .refused r := rfl

@[simp] theorem runSchedule_nil (c : Cluster) : runSchedule [] c = c := rfl

@[simp] theorem runSchedule_cons (j : Nat) (js : List Nat) (c : Cluster) :
    runSchedule (j :: js) c = runSchedule js (stepBlock c j) := rfl

@[simp] theorem length_stepBlock (c : Cluster) (j : Nat) : (stepBlock c j).length = c.length := by
  simp [stepBlock]

/-- The block that steps. -/
theorem stepBlock_same (c : Cluster) (j : Nat) :
    getElem? (stepBlock c j) j = (getElem? c j).map Block.advance := by
  simp [stepBlock]

/-- Every other block. -/
theorem stepBlock_other (c : Cluster) {j k : Nat} (h : j ≠ k) :
    getElem? (stepBlock c j) k = getElem? c k := by
  simp [stepBlock, h]

end Sys2Proof.Laws
end

