-- ==== Sys2Proof/Laws/Operands.lean ====
section
/-! SUPPORT. Accumulator values by slot, their packing, and the fields of command and response words. -/

namespace Sys2Proof.Laws

open Sys2Proof.Machine

/-- Two accumulator values with the same ten slots are the same. -/
theorem accum_ext {a b : Accum} (h : ∀ i, slotOf a i = slotOf b i) : a = b := by
  cases a; cases b
  simp only [Accum.mk.injEq]
  exact ⟨h 0, h 1, h 2, h 3, h 4, h 5, h 6, h 7, h 8, h 9⟩

/-- A property of all ten slots, slot by slot. -/
theorem forall_slot {p : Fin 10 → Prop} :
    (∀ i, p i) ↔ p 0 ∧ p 1 ∧ p 2 ∧ p 3 ∧ p 4 ∧ p 5 ∧ p 6 ∧ p 7 ∧ p 8 ∧ p 9 := by
  constructor
  · intro h; exact ⟨h 0, h 1, h 2, h 3, h 4, h 5, h 6, h 7, h 8, h 9⟩
  · rintro ⟨h0, h1, h2, h3, h4, h5, h6, h7, h8, h9⟩ i
    fin_cases i <;> assumption

@[simp] theorem slotOf_ofSlots (f : Fin 10 → Byte) (i : Fin 10) : slotOf (ofSlots f) i = f i := by
  fin_cases i <;> rfl

@[simp] theorem slotOf_zero10 (i : Fin 10) : slotOf zero10 i = 0#8 := by
  fin_cases i <;> rfl

@[simp] theorem slotOf_setSlot_same (a : Accum) (i : Fin 10) (e : Byte) : slotOf (setSlot a i e) i = e := by
  fin_cases i <;> rfl

theorem slotOf_setSlot_other (a : Accum) {i j : Fin 10} (e : Byte) (h : i ≠ j) :
    slotOf (setSlot a j e) i = slotOf a i := by
  fin_cases j <;> fin_cases i <;> first | rfl | exact absurd rfl h

/-- `val` in terms of the slots (00_scope.md R10). -/
theorem val_eq_sum (a : Accum) : val a = ∑ i : Fin 10, (slotOf a i).toNat * placeValue i := by
  simp only [Fin.sum_univ_succ, Fin.sum_univ_zero, placeValue]
  simp [val, slotOf]
  ring

/-- Reading a slice out of the high part of a concatenation. -/
theorem slice_append_high {m n : Nat} (x : BitVec m) (y : BitVec n) (start len : Nat) (h : n ≤ start) :
    (x ++ y).extractLsb' start len = x.extractLsb' (start - n) len := by
  apply BitVec.eq_of_getLsbD_eq
  intro i hi
  have : ¬ start + i < n := by omega
  simp only [BitVec.getLsbD_extractLsb', BitVec.getLsbD_append, hi, decide_true, Bool.true_and]
  rw [show start + i - n = start - n + i by omega]
  simp [this]

/-- Reading a slice out of the low part of a concatenation. -/
theorem slice_append_low {m n : Nat} (x : BitVec m) (y : BitVec n) (start len : Nat) (h : start + len ≤ n) :
    (x ++ y).extractLsb' start len = y.extractLsb' start len := by
  apply BitVec.eq_of_getLsbD_eq
  intro i hi
  have : start + i < n := by omega
  simp [BitVec.getLsbD_append, hi, this]

/-- A slice of the whole width is the word itself. -/
theorem slice_whole {n : Nat} (x : BitVec n) : x.extractLsb' 0 n = x := by
  simp

section Fields

variable (op : Byte) (v : BitVec 32) (a b : BitVec 80)

@[simp] theorem opField_commandWord : opField (commandWord op v a b) = op := by
  unfold opField commandWord
  rw [slice_append_high _ _ _ _ (by decide), slice_append_high _ _ _ _ (by decide),
    slice_append_high _ _ _ _ (by decide)]
  exact slice_whole op

@[simp] theorem vField_commandWord : vField (commandWord op v a b) = v := by
  unfold vField commandWord
  rw [slice_append_high _ _ _ _ (by decide), slice_append_high _ _ _ _ (by decide),
    slice_append_low _ _ _ _ (by decide)]
  exact slice_whole v

@[simp] theorem aField_commandWord : aField (commandWord op v a b) = a := by
  unfold aField commandWord
  rw [slice_append_high _ _ _ _ (by decide), slice_append_low _ _ _ _ (by decide)]
  exact slice_whole a

@[simp] theorem bField_commandWord : bField (commandWord op v a b) = b := by
  unfold bField commandWord
  rw [slice_append_low _ _ _ _ (by decide)]
  exact slice_whole b

end Fields

section ResponseFields

variable (acc : BitVec 80) (txt : BitVec 88) (len : Byte)

@[simp] theorem accField_responseWord : accField (responseWord acc txt len) = acc := by
  unfold accField responseWord
  rw [slice_append_high _ _ _ _ (by decide), slice_append_high _ _ _ _ (by decide)]
  exact slice_whole acc

@[simp] theorem txtField_responseWord : txtField (responseWord acc txt len) = txt := by
  unfold txtField responseWord
  rw [slice_append_high _ _ _ _ (by decide), slice_append_low _ _ _ _ (by decide)]
  exact slice_whole txt

@[simp] theorem lenField_responseWord : lenField (responseWord acc txt len) = len := by
  unfold lenField responseWord
  rw [slice_append_low _ _ _ _ (by decide)]
  exact slice_whole len

end ResponseFields

end Sys2Proof.Laws
end

