-- ==== Sys2Proof/Laws/Memory.lean ====
section
/-! SUPPORT. What a read of each constant memory gives, in arithmetic (20_memory.md R47). -/

namespace Sys2Proof.Laws

open Sys2Proof.Machine

theorem qLook_toNat : ∀ b : Byte, (qLook b).toNat = b.toNat / 10 := by decide

theorem rLook_toNat : ∀ b : Byte, (rLook b).toNat = b.toNat % 10 := by decide

/-- A ROM entry stands for its power of two (20_memory.md R41). -/
theorem val_romRead : ∀ k : Fin 32, val (romRead k) = 2 ^ k.val := by decide

theorem happy_romRead : ∀ k : Fin 32, happy (romRead k) := by decide

end Sys2Proof.Laws
end

