-- ==== Sys2Proof/Laws/State.lean ====
section
/-! SUPPORT. One lemma per field per update of State, so that later proofs unfold no record update. -/

namespace Sys2Proof.Laws

open Sys2Proof.Machine Sys2Proof.Safety

variable (s : State) (rw : ResponseWord) (cw : CommandWord)

@[simp] theorem answered_hostEvents : (answered s rw).hostEvents = s.hostEvents := rfl
@[simp] theorem answered_responses : (answered s rw).responses = s.responses ++ [rw] := rfl
@[simp] theorem answered_draws : (answered s rw).draws = s.draws := rfl

@[simp] theorem answeredDrawing_hostEvents : (answeredDrawing s rw).hostEvents = s.hostEvents := rfl
@[simp] theorem answeredDrawing_responses : (answeredDrawing s rw).responses = s.responses ++ [rw] := rfl
@[simp] theorem answeredDrawing_draws : (answeredDrawing s rw).draws = s.draws + 1 := rfl

@[simp] theorem presentNext_hostEvents : (presentNext cw s).hostEvents = .command cw :: s.hostEvents := rfl
@[simp] theorem presentNext_responses : (presentNext cw s).responses = s.responses := rfl
@[simp] theorem presentNext_draws : (presentNext cw s).draws = s.draws := rfl

@[simp] theorem resetBlock_hostEvents : (resetBlock s).hostEvents = s.hostEvents := rfl
@[simp] theorem resetBlock_responses : (resetBlock s).responses = [] := rfl
@[simp] theorem resetBlock_draws : (resetBlock s).draws = s.draws := rfl

@[simp] theorem reset_hostEvents : State.reset.hostEvents = [] := rfl
@[simp] theorem reset_responses : State.reset.responses = [] := rfl
@[simp] theorem reset_draws : State.reset.draws = 0 := rfl

end Sys2Proof.Laws
end

