-- ==== Sys2Proof/Laws/Ops.lean ====
section
/-! SUPPORT. For each shared operation, once, everything it can do. -/

namespace Sys2Proof.Laws

open Sys2Proof.Machine Sys2Proof.Safety

/-- Slot addition answers exactly the sums that fit a byte. -/
theorem slotAdd_eq_some {x y z : Byte} :
    slotAdd x y = some z ↔ z.toNat = x.toNat + y.toNat := by
  unfold slotAdd Config.slotMax
  have hz := z.isLt
  split
  · simp only [Option.some.injEq]
    constructor
    · rintro rfl
      rw [BitVec.toNat_add]; omega
    · intro h
      apply BitVec.eq_of_toNat_eq
      rw [BitVec.toNat_add]; omega
  · simp only [reduceCtorEq, false_iff]; omega

theorem slotAdd_eq_none {x y : Byte} : slotAdd x y = none ↔ 255 < x.toNat + y.toNat := by
  unfold slotAdd Config.slotMax
  split <;> simp <;> omega

/-- Lazy addition answers `c` exactly when every slot of `c` is the exact sum. -/
theorem addLazy_eq_some {a b c : Accum} :
    addLazy a b = some c ↔ ∀ i, (slotOf c i).toNat = (slotOf a i).toNat + (slotOf b i).toNat := by
  unfold addLazy
  split
  next h =>
    simp only [Option.some.injEq]
    constructor
    · rintro rfl i
      have := h i
      simp only [Config.slotMax] at this
      rw [slotOf_ofSlots, BitVec.toNat_add]; omega
    · intro hc
      apply accum_ext
      intro i
      apply BitVec.eq_of_toNat_eq
      have := h i
      simp only [Config.slotMax] at this
      rw [slotOf_ofSlots, BitVec.toNat_add, hc i]; omega
  next h =>
    simp only [reduceCtorEq, false_iff]
    intro hc
    refine h fun i => ?_
    have := (slotOf c i).isLt
    have := hc i
    simp only [Config.slotMax]; omega

theorem addLazy_eq_none {a b : Accum} : addLazy a b = none ↔ ¬ lazyFits a b := by
  unfold addLazy
  split <;> simp_all

theorem addLazy_of_fits {a b : Accum} (h : lazyFits a b) : addLazy a b = some (slotSums a b) := by
  simp [addLazy, h, slotSums]

/-- A stage on a slot to the right of slot 0 changes that slot and its left neighbour, and nothing else. -/
theorem squeezeStage_eq_some {w w' : Accum} {i : Fin 10} (hi : i ≠ 0) :
    squeezeStage w i = some w' ↔
      (slotOf w' (i - 1)).toNat = (slotOf w (i - 1)).toNat + (slotOf w i).toNat / 10 ∧
      (slotOf w' i).toNat = (slotOf w i).toNat % 10 ∧
      ∀ j, j ≠ i → j ≠ i - 1 → slotOf w' j = slotOf w j := by
  have hne : i - 1 ≠ i := by revert hi; revert i; decide
  unfold squeezeStage
  cases hq : slotAdd (slotOf w (i - 1)) (qLook (slotOf w i)) with
  | none =>
    simp only [reduceCtorEq, false_iff]
    rintro ⟨h, -, -⟩
    have := slotAdd_eq_none.1 hq
    rw [qLook_toNat] at this
    have := (slotOf w' (i - 1)).isLt
    omega
  | some l =>
    have hl := slotAdd_eq_some.1 hq
    rw [qLook_toNat] at hl
    simp only [Option.some.injEq]
    constructor
    · rintro rfl
      refine ⟨?_, ?_, ?_⟩
      · rw [slotOf_setSlot_other _ _ hne, slotOf_setSlot_same, hl]
      · rw [slotOf_setSlot_same, rLook_toNat]
      · intro j h1 h2
        rw [slotOf_setSlot_other _ _ h1, slotOf_setSlot_other _ _ h2]
    · rintro ⟨h1, h2, h3⟩
      apply accum_ext
      intro j
      by_cases hj : j = i
      · subst hj
        apply BitVec.eq_of_toNat_eq
        rw [slotOf_setSlot_same, rLook_toNat, h2]
      · rw [slotOf_setSlot_other _ _ hj]
        by_cases hj' : j = i - 1
        · subst hj'
          apply BitVec.eq_of_toNat_eq
          rw [slotOf_setSlot_same, hl, h1]
        · rw [slotOf_setSlot_other _ _ hj', h3 j hj hj']

theorem squeezeStage_eq_none {w : Accum} {i : Fin 10} :
    squeezeStage w i = none ↔ 255 < (slotOf w (i - 1)).toNat + (slotOf w i).toNat / 10 := by
  rw [← qLook_toNat, ← slotAdd_eq_none]
  unfold squeezeStage
  cases slotAdd (slotOf w (i - 1)) (qLook (slotOf w i)) <;> simp

@[simp] theorem squeezeFrom_nil (w : Accum) : squeezeFrom [] w = some w := rfl

theorem squeezeFrom_cons (i : Fin 10) (is : List (Fin 10)) (w : Accum) :
    squeezeFrom (i :: is) w = (squeezeStage w i).bind (squeezeFrom is) := by
  rw [squeezeFrom]; cases squeezeStage w i <;> rfl

@[simp] theorem scanFrom_nil (v : BitVec 32) (w : Accum) : scanFrom v [] w = some w := rfl

theorem scanFrom_cons (v : BitVec 32) (k : Fin 32) (ks : List (Fin 32)) (w : Accum) :
    scanFrom v (k :: ks) w = (scanPosition v w k).bind (scanFrom v ks) := by
  rw [scanFrom]; cases scanPosition v w k <;> rfl

/-- A scan position adds the ROM entry's digits where its bit is set, and nothing where it is not. -/
theorem scanPosition_eq_some {v : BitVec 32} {w w' : Accum} {k : Fin 32} :
    scanPosition v w k = some w' ↔ ∀ i, (slotOf w' i).toNat =
      (slotOf w i).toNat + if v.getLsbD k.val then (slotOf (romRead k) i).toNat else 0 := by
  unfold scanPosition
  split
  next h => rw [addLazy_eq_some]
  next h =>
    simp only [Option.some.injEq, Nat.add_zero]
    constructor
    · rintro rfl i; rfl
    · intro h
      exact accum_ext fun i => BitVec.eq_of_toNat_eq (h i).symm

/-- Giving a response always completes: one response more, the counter of draws advanced exactly when a field was
drawn, nothing else changed. -/
theorem respond_eq (r : Reply) (s : State) :
    respond r s = .next { s with
      responses := s.responses ++ [settle r s.draws]
      draws := if r.specified then s.draws else s.draws + 1 } := rfl

/-- A reply with every field specified draws nothing. -/
theorem respond_of_some (x : BitVec 80) (t : Text) (s : State) :
    respond ⟨some x, some t⟩ s = .next (answered s (responseWord x t.txt t.len)) := rfl

theorem respond_accReply_some (c : Accum) (s : State) :
    respond (accReply (some c)) s = .next (answered s (responseWord c.pack 0#88 0#8)) := rfl

theorem respond_accReply_none (s : State) :
    respond (accReply none) s =
      .next (answeredDrawing s (responseWord (Config.freeAcc s.draws) 0#88 0#8)) := rfl

theorem respond_textReply_some (t : Text) (s : State) :
    respond (textReply (some t)) s = .next (answered s (responseWord 0#80 t.txt t.len)) := rfl

theorem respond_textReply_none (s : State) :
    respond (textReply none) s =
      .next (answeredDrawing s (responseWord 0#80 (Config.freeTxt s.draws) (Config.freeLen s.draws))) := rfl

/-- Every command is its reply, given. -/
theorem exec_eq_respond (i : Instr) (s : State) : exec i s = respond (replyOf i) s := by
  cases i <;> rfl

/-- Everything a step can do: stay idle, run the first command, or reset. -/
theorem step_idle {s : State} (h : s.hostEvents = []) : step s = .next s := by
  unfold step takeEvent; rw [h]; rfl

theorem step_command {s : State} {cw : CommandWord} {es : List HostEvent}
    (h : s.hostEvents = .command cw :: es) : step s = runCommand cw { s with hostEvents := es } := by
  unfold step takeEvent; rw [h]; rfl

theorem step_reset {s : State} {es : List HostEvent} (h : s.hostEvents = .reset :: es) :
    step s = .next { s with hostEvents := es, responses := [] } := by
  unfold step takeEvent; rw [h]; rfl

theorem runCommand_of_command {cw : CommandWord} {i : Instr} (h : decode cw = .command i) (s : State) :
    runCommand cw s = exec i s := by
  unfold runCommand; rw [h]

theorem runCommand_of_reserved {cw : CommandWord} {op : Byte} (h : decode cw = .reserved op) (s : State) :
    runCommand cw s = .refused (.reservedOpcode op) := by
  unfold runCommand; rw [h]

@[simp] theorem runSteps_zero (s : State) : runSteps 0 s = .next s := rfl

theorem runSteps_succ_of_next {s t : State} (k : Nat) (h : step s = .next t) :
    runSteps (k + 1) s = runSteps k t := by
  have hc : Sys2Proof.core.step s = .next t := h
  simp only [runSteps, Host.Core.run, hc]
  rfl

theorem runSteps_succ_of_refused {s : State} {r : Refusal} (k : Nat) (h : step s = .refused r) :
    runSteps (k + 1) s = .refused r := by
  have hc : Sys2Proof.core.step s = .refused r := h
  simp only [runSteps, Host.Core.run, hc]
  rfl

end Sys2Proof.Laws
end

