-- ==== Sys2Proof/Laws/PerInstr.lean ====
section
/-! SUPPORT. Families of lemmas with one lemma per constructor of Instr. -/

namespace Sys2Proof.Laws.EncodedFields

open Sys2Proof.Machine

/-- The encoding of a command carries the command's opcode and is canonical: every field the operation ignores is
zero (30_encoding.md R72, R74). -/
def Statement (i : Instr) : Prop := opField (encode i) = opcodeOf i ∧ isCanonical (encode i) = true

theorem enc (v : BitVec 32) : Statement (.enc v) := by
  simp [Statement, encode, opcodeOf, isCanonical, definedOpcode, readsV, readsA, readsB]

theorem addl (a b : Accum) : Statement (.addl a b) := by
  simp [Statement, encode, opcodeOf, isCanonical, definedOpcode, readsV, readsA, readsB]

theorem addn (a b : Accum) : Statement (.addn a b) := by
  simp [Statement, encode, opcodeOf, isCanonical, definedOpcode, readsV, readsA, readsB]

theorem norm (a : Accum) : Statement (.norm a) := by
  simp [Statement, encode, opcodeOf, isCanonical, definedOpcode, readsV, readsA, readsB]

theorem rend (a : Accum) : Statement (.rend a) := by
  simp [Statement, encode, opcodeOf, isCanonical, definedOpcode, readsV, readsA, readsB]

theorem encr (v : BitVec 32) : Statement (.encr v) := by
  simp [Statement, encode, opcodeOf, isCanonical, definedOpcode, readsV, readsA, readsB]

end Sys2Proof.Laws.EncodedFields
end

