-- ==== Sys2Proof/Laws/Script.lean ====
section
/-! SUPPORT. What a name stands for after a line: the latest line of that name decides (30_encoding.md R80, R81). -/

namespace Sys2Proof.Laws

open Sys2Proof.Machine

@[simp] theorem keep_txt (c : ScriptCommand) (rw : ResponseWord) : (keep c rw).txt = txtField rw := rfl

@[simp] theorem keep_len (c : ScriptCommand) (rw : ResponseWord) : (keep c rw).len = lenField rw := rfl

theorem keep_acc_of_utoa {c : ScriptCommand} (h : ∃ v, c = .utoa v) (rw : ResponseWord) : (keep c rw).acc = none := by
  obtain ⟨v, rfl⟩ := h
  rfl

theorem keep_acc_of_other {c : ScriptCommand} (h : ∀ v, c ≠ .utoa v) (rw : ResponseWord) :
    (keep c rw).acc = some (accField rw) := by
  cases c with
  | utoa v => exact absurd rfl (h v)
  | enc | addl | addn | norm | rend | encr | zero | pow2 | dbl => rfl

theorem operandValue_latest (r : String) (k : Kept) (names : Names) :
    operandValue ((r, k) :: names) (.name r) = k.acc.map Accum.unpack := by
  simp [operandValue, List.lookup]

theorem textOf_latest (r : String) (k : Kept) (names : Names) :
    textOf ((r, k) :: names) r = some ((textBytes k.txt).take k.len.toNat) := by
  simp [textOf, List.lookup]

theorem lengthOf_latest (r : String) (k : Kept) (names : Names) :
    lengthOf ((r, k) :: names) r = some k.len.toNat := by
  simp [lengthOf, List.lookup]

theorem lookup_other {r r' : String} (h : r' ≠ r) (k : Kept) (names : Names) :
    List.lookup r' ((r, k) :: names) = names.lookup r' := by
  have : (r' == r) = false := by simpa using h
  simp [List.lookup, this]

theorem operandValue_other {r r' : String} (h : r' ≠ r) (k : Kept) (names : Names) :
    operandValue ((r, k) :: names) (.name r') = operandValue names (.name r') := by
  simp only [operandValue, lookup_other h]

theorem textOf_other {r r' : String} (h : r' ≠ r) (k : Kept) (names : Names) :
    textOf ((r, k) :: names) r' = textOf names r' := by
  simp only [textOf, lookup_other h]

theorem lengthOf_other {r r' : String} (h : r' ≠ r) (k : Kept) (names : Names) :
    lengthOf ((r, k) :: names) r' = lengthOf names r' := by
  simp only [lengthOf, lookup_other h]

end Sys2Proof.Laws
end

