-- ==== Sys2Proof/Tests/Slice0.lean ====
section
/-! SUPPORT. Tests of the model. Expected words are those of spec/95_test_vectors.md and 30_encoding.md R82. -/

namespace Sys2Proof.Tests

open Sys2Proof.Machine Sys2Proof.Safety

/-- The response to one command word presented right after reset. -/
def responseTo (cw : CommandWord) : Option ResponseWord :=
  match step (presentNext cw State.reset) with
  | .next t => t.responses.getLast?
  | .fault _ => none
  | .refused _ => none

/-! One response per command word, 95_test_vectors.md. -/

/-- 95_test_vectors.md 2.4, with the ignored fields all ones. -/
theorem test_enc_ignores_a_and_b :
    responseTo 0x01000003E8FFFFFFFFFFFFFFFFFFFFFFFFFFFFFFFFFFFFFFFF#200 =
      some 0x00000000000001000000000000000000000000000000#176 := by decide

/-- 42_encode.md R152, last row, as ENC. -/
theorem test_enc_all_ones :
    responseTo 0x01FFFFFFFF0000000000000000000000000000000000000000#200 =
      some 0x04020904090607020905000000000000000000000000#176 := by decide

/-- 95_test_vectors.md 2.1, row 7. -/
theorem test_addl_slots_of_255 :
    responseTo 0x02000000007F7F7F7F7F7F7F7F7F7F80808080808080808080#200 =
      some 0xFFFFFFFFFFFFFFFFFFFF000000000000000000000000#176 := by decide

/-- 95_test_vectors.md 2.1, the ignored-field example. -/
theorem test_addl_ignores_v :
    responseTo 0x02DEADBEEF0000000000000000000800000000000000000004#200 =
      some 0x0000000000000000000C000000000000000000000000#176 := by decide

/-- 95_test_vectors.md 2.3, row 5. -/
theorem test_addn_33_bit_sum :
    responseTo 0x03000000000402090409060702090504020904090607020905#200 =
      some 0x08050809090304050900000000000000000000000000#176 := by decide

/-- 95_test_vectors.md 2.3, row 6: slot 0 unhappy. -/
theorem test_addn_slot_0_unhappy :
    responseTo 0x03000000000909090909090909090900000000000000000001#200 =
      some 0x0A000000000000000000000000000000000000000000#176 := by decide

/-- 95_test_vectors.md 2.2, row 7, the wrong-model detector of 41_normalize.md R122. -/
theorem test_norm_second_carry :
    responseTo 0x04000000000000000000000000090A00000000000000000000#200 =
      some 0x00000000000000010000000000000000000000000000#176 := by decide

/-- 95_test_vectors.md 2.2, row 12. -/
theorem test_norm_all_230 :
    responseTo 0x0400000000E6E6E6E6E6E6E6E6E6E600000000000000000000#200 =
      some 0xFF050505050505050300000000000000000000000000#176 := by decide

/-- 95_test_vectors.md 2.5, row 4. -/
theorem test_rend_interior_zeros :
    responseTo 0x05000000000000000005000007000000000000000000000000#200 =
      some 0x00000000000000000000353030373030000000000006#176 := by decide

/-- 95_test_vectors.md 2.5, row 1. -/
theorem test_rend_zero :
    responseTo 0x05000000000000000000000000000000000000000000000000#200 =
      some 0x00000000000000000000300000000000000000000001#176 := by decide

/-- 95_test_vectors.md 2.4, ENCR 4294967295. -/
theorem test_encr_all_ones :
    responseTo 0x06FFFFFFFF0000000000000000000000000000000000000000#200 =
      some 0x0402090409060702090534323934393637323935000A#176 := by decide

/-- 95_test_vectors.md 2.4, ENCR 123456789. -/
theorem test_encr_nine_digits :
    responseTo 0x06075BCD150000000000000000000000000000000000000000#200 =
      some 0x00010203040506070809313233343536373839000009#176 := by decide

/-! Well-formedness: for each check a term it refuses, and one it takes. -/

/-- 10_state.md R21: every command is well formed, at the largest value of every operand. -/
theorem test_every_command_is_well_formed :
    Instr.wellFormed (.enc 0xFFFFFFFF#32) = true ∧
    Instr.wellFormed (.addl ⟨255, 255, 255, 255, 255, 255, 255, 255, 255, 255⟩ zero10) = true := by decide

/-- 30_encoding.md R80: a literal has ten slot values. -/
theorem test_literal_of_nine_slots_refused :
    ScriptOperand.wellFormed (.literal [0, 0, 0, 0, 0, 0, 0, 0, 0]) = false ∧
    ofLiteral [0, 0, 0, 0, 0, 0, 0, 0, 0] = none ∧
    ofLiteral [0, 0, 0, 0, 0, 0, 0, 0, 1, 6] = some ⟨0, 0, 0, 0, 0, 0, 0, 0, 1, 6⟩ := by decide

/-- 00_scope.md R6: a slot holds at most 255. -/
theorem test_literal_with_256_refused :
    ScriptOperand.wellFormed (.literal [0, 0, 0, 0, 0, 0, 0, 0, 0, 256]) = false ∧
    ScriptOperand.wellFormed (.literal [0, 0, 0, 0, 0, 0, 0, 0, 0, 255]) = true := by decide

/-- 00_scope.md R6: `v` is at most 4294967295. -/
theorem test_input_of_33_bits_refused :
    fitsInput 4294967296 = false ∧ fitsInput 4294967295 = true ∧
    ScriptCommand.wellFormed (.enc 4294967296) = false ∧ ScriptCommand.wellFormed (.utoa 4294967296) = false ∧
    expand [] (.encr 4294967296) = none := by decide

/-- 30_encoding.md R81: `POW2 k` has `0 <= k <= 31`. -/
theorem test_pow2_32_refused :
    ScriptCommand.wellFormed (.pow2 32) = false ∧ expand [] (.pow2 32) = none ∧
    expand [] (.pow2 31) = some (.enc 0x80000000#32) := by decide

/-- 30_encoding.md R80: an ill-formed operand makes its command ill formed. -/
theorem test_script_command_with_bad_operand_refused :
    ScriptCommand.wellFormed (.dbl (.literal [1])) = false ∧
    ScriptCommand.wellFormed (.addl (.name "a") (.literal [1])) = false ∧
    ScriptCommand.wellFormed (.addn (.literal [1]) (.name "a")) = false ∧
    ScriptCommand.wellFormed (.norm (.literal [1])) = false ∧
    ScriptCommand.wellFormed (.rend (.literal [1])) = false := by decide

/-- 30_encoding.md R74: no canonical word has a reserved opcode or a bit set in an ignored field. -/
theorem test_uncanonical_words_refused :
    isCanonical 0#200 = false ∧
    isCanonical 0x01000003E80000000000000000000100000000000000000000#200 = false ∧
    isCanonical 0x01000003E80000000000000000000000000000000000000001#200 = false ∧
    isCanonical 0x02000000010000000000000000000000000000000000000000#200 = false ∧
    isCanonical 0x04000000000000000000000000000000000000000000000001#200 = false ∧
    isCanonical 0x01000003E80000000000000000000000000000000000000000#200 = true := by decide

/-! Decoding: words written out from the fields of 30_encoding.md R71, `op v a b`. -/

/-- 95_test_vectors.md 2.4. -/
theorem test_decode_enc :
    decode (0x01#8 ++ 0x000003E8#32 ++ 0xFFFFFFFFFFFFFFFFFFFF#80 ++ 0xFFFFFFFFFFFFFFFFFFFF#80) =
      .command (.enc 1000) := by decide

/-- 95_test_vectors.md 2.1, row 5. -/
theorem test_decode_addl :
    decode (0x02#8 ++ 0x00000000#32 ++ 0x0102030405060708090A#80 ++ 0x0A090807060504030201#80) =
      .command (.addl ⟨1, 2, 3, 4, 5, 6, 7, 8, 9, 10⟩ ⟨10, 9, 8, 7, 6, 5, 4, 3, 2, 1⟩) := by decide

/-- 95_test_vectors.md 3, P4, step 32. -/
theorem test_decode_addn :
    decode (0x03#8 ++ 0x00000000#32 ++ 0x02010407040803060408#80 ++ 0x00000000000000000001#80) =
      .command (.addn ⟨2, 1, 4, 7, 4, 8, 3, 6, 4, 8⟩ ⟨0, 0, 0, 0, 0, 0, 0, 0, 0, 1⟩) := by decide

/-- 95_test_vectors.md 2.2, row 4. -/
theorem test_decode_norm :
    decode (0x04#8 ++ 0x00000000#32 ++ 0x0000000000000008111E#80 ++ 0x00000000000000000000#80) =
      .command (.norm ⟨0, 0, 0, 0, 0, 0, 0, 8, 17, 30⟩) := by decide

/-- 95_test_vectors.md 2.5, row 5. -/
theorem test_decode_rend :
    decode (0x05#8 ++ 0x00000000#32 ++ 0x00090009000900090009#80 ++ 0x00000000000000000000#80) =
      .command (.rend ⟨0, 9, 0, 9, 0, 9, 0, 9, 0, 9⟩) := by decide

/-- 95_test_vectors.md 2.6, last row. -/
theorem test_decode_encr :
    decode (0x06#8 ++ 0x000003E8#32 ++ 0x00000000000000000000#80 ++ 0x00000000000000000000#80) =
      .command (.encr 1000) := by decide

/-- 95_test_vectors.md 2.6, the four reserved words. -/
theorem test_decode_reserved :
    decode 0#200 = .reserved 0x00 ∧
    decode (0x07#8 ++ 0#192) = .reserved 0x07 ∧
    decode (0x81#8 ++ 0x000003E8#32 ++ 0#160) = .reserved 0x81 ∧
    decode (BitVec.allOnes 200) = .reserved 0xFF := by decide

/-- spec/opcode_table.json, row ENC: `match` with zero operands. -/
theorem test_table_word_of_enc :
    decodeTableWord 200 0x01000000000000000000000000000000000000000000000000 = some (.enc 0) ∧
    decodeTableWord 200 0 = none := by decide

/-- 20_memory.md R54, 41_normalize.md R130: nine reads of each table also where `t_8 = 280` (R124's example). -/
theorem test_norm_overflow_reads_nine_times :
    (readsOf 0 (.norm ⟨0, 0, 0, 0, 0, 0, 0, 0, 255, 255⟩)).countP isQtabRead = 9 ∧
    (readsOf 0 (.norm ⟨0, 0, 0, 0, 0, 0, 0, 0, 255, 255⟩)).countP isRtabRead = 9 ∧
    (readsOf 0 (.norm ⟨0, 0, 0, 0, 0, 0, 0, 0, 255, 255⟩)).head? = some (.qtab 255) := by decide

/-- 42_encode.md R140: `ENC 10` (bits 3 and 1) reads `ROM[3]`, `ROM[1]`, then both tables at slot 9, which is 10. -/
theorem test_enc_reads_rom_from_the_top :
    (readsOf 0 (.enc 10)).take 4 = [.rom 3, .rom 1, .qtab 10, .rtab 10] := by decide

/-! Steps. -/

/-- 30_encoding.md R75: a reserved opcode is refused. -/
theorem test_step_refuses_reserved_opcode :
    (match step (State.reset.withFetchWord 200 (0x81 * 2 ^ 192)) with
      | .refused r => some r
      | .next _ => none
      | .fault _ => none) = some (.reservedOpcode 0x81) := by decide

/-- 95_test_vectors.md 2.5, last row (CV3): the response comes, its `acc` is zero. -/
theorem test_rend_violation_keeps_acc_zero :
    (responseTo 0x05000000000000000000000000010A00000000000000000000#200).map accField = some 0 := by
  simp [responseTo, step, presentNext, takeEvent, performEvent, runCommand, exec, execRend, respond, settle, replyRend,
    textReply, decode, opField, State.reset, Laws.accField_responseWord]

/-- 30_encoding.md R81: `UTOA` keeps the text and no `acc`, so that its name is no accumulator operand. -/
theorem test_script_utoa_keeps_only_the_text :
    (runScript [⟨"t", .utoa 10⟩] [] State.reset).map (fun r =>
      (textOf r.1 "t", lengthOf r.1 "t", operandValue r.1 (.name "t"))) =
      some (some [0x31#8, 0x30#8], some 2, none) := by decide

/-- 95_test_vectors.md 3, P4, steps 0 and 1: a name stands for the `acc` of its response. -/
theorem test_script_doubles_one :
    (runScript [⟨"x", .enc 1⟩, ⟨"x", .dbl (.name "x")⟩] [] State.reset).map (fun r => r.2.responses) =
      some [0x00000000000000000001000000000000000000000000#176,
        0x00000000000000000002000000000000000000000000#176] := by decide

/-! Witnesses: concrete operands and states that meet the hypotheses of the statements, at the boundary of each. -/

/-- The largest happy accumulator. -/
def nines : Accum := ⟨9, 9, 9, 9, 9, 9, 9, 9, 9, 9⟩
/-- Every stage input to the left of slot 9 is 255 or less, slot 8's is 255 exactly. -/
def stage255 : Accum := ⟨0, 0, 0, 0, 0, 0, 0, 0, 246, 99⟩
/-- As `stage255`, with slot 8's stage input 256. -/
def stage256 : Accum := ⟨0, 0, 0, 0, 0, 0, 0, 0, 246, 100⟩
/-- All slots 230. -/
def all230 : Accum := ⟨230, 230, 230, 230, 230, 230, 230, 230, 230, 230⟩
/-- All slots 127, and all slots 128. -/
def all127 : Accum := ⟨127, 127, 127, 127, 127, 127, 127, 127, 127, 127⟩
def all128 : Accum := ⟨128, 128, 128, 128, 128, 128, 128, 128, 128, 128⟩
/-- A block with the given host actions ahead of it, one response and one draw behind it. -/
def busy (es : List HostEvent) : State := ⟨es, [0x00000000000000000001000000000000000000000000#176], 1⟩

theorem witness_OpcodeRowsSelectByMaskAndReadTheirFields :
    0x01000003E80000000000000000000000000000000000000000#200 &&& (0xFF#200 <<< 192) = 0x01#200 <<< 192 ∧
    0x02000000000000000000000000000800000000000000000004#200 &&& (0xFF#200 <<< 192) = 0x02#200 <<< 192 ∧
    0x03000000000000000000000000000800000000000000000004#200 &&& (0xFF#200 <<< 192) = 0x03#200 <<< 192 ∧
    0x0400000000000000000000000000FF00000000000000000000#200 &&& (0xFF#200 <<< 192) = 0x04#200 <<< 192 ∧
    0x05000000000000000000000100000000000000000000000000#200 &&& (0xFF#200 <<< 192) = 0x05#200 <<< 192 ∧
    0x06FFFFFFFF0000000000000000000000000000000000000000#200 &&& (0xFF#200 <<< 192) = 0x06#200 <<< 192 := by decide

theorem witness_EncodedCommandsDecodeBack : Instr.wellFormed (.addn all230 nines) = true := by decide

theorem witness_IgnoredFieldsHaveNoEffect_enc :
    opField (commandWord 0x01 1000 0 0) = opField (commandWord 0x01 1000 1 (BitVec.allOnes 80)) ∧
    opField (commandWord 0x01 1000 0 0) = 0x01#8 ∧
    vField (commandWord 0x01 1000 0 0) = vField (commandWord 0x01 1000 1 (BitVec.allOnes 80)) := by decide

theorem witness_IgnoredFieldsHaveNoEffect_addl :
    opField (commandWord 0x02 0 8 4) = opField (commandWord 0x02 0xDEADBEEF 8 4) ∧
    opField (commandWord 0x02 0 8 4) = 0x02#8 ∧
    aField (commandWord 0x02 0 8 4) = aField (commandWord 0x02 0xDEADBEEF 8 4) ∧
    bField (commandWord 0x02 0 8 4) = bField (commandWord 0x02 0xDEADBEEF 8 4) := by decide

theorem witness_IgnoredFieldsHaveNoEffect_norm :
    opField (commandWord 0x04 0 8 4) = opField (commandWord 0x04 1 8 5) ∧
    opField (commandWord 0x04 0 8 4) = 0x04#8 ∧
    aField (commandWord 0x04 0 8 4) = aField (commandWord 0x04 1 8 5) := by decide

theorem witness_ExactlyReservedOpcodesAreRefused :
    opField (0x00#8 ++ 0#192) = 0x00#8 ∧ 0x07#8 ≤ opField (0x07#8 ++ 0#192) ∧ 0x07#8 ≤ opField (0xFF#8 ++ 0#192) ∧
    ¬ (opField (0x01#8 ++ 0#192) = 0x00#8 ∨ 0x07#8 ≤ opField (0x01#8 ++ 0#192)) ∧
    ¬ (opField (0x06#8 ++ 0#192) = 0x00#8 ∨ 0x07#8 ≤ opField (0x06#8 ++ 0#192)) := by decide

theorem witness_CommandsReadTheMemoriesAsOften :
    (∀ j : Fin 10, 8 ≤ j → stageInput stage255 j ≤ 255) ∧ ¬ (∀ j : Fin 10, 8 ≤ j → stageInput stage256 j ≤ 255) ∧
    (∀ i, (slotOf stage256 i).toNat = (slotOf stage256 i).toNat + (slotOf zero10 i).toNat) ∧
    (∃ i, 255 < (slotOf all128 i).toNat + (slotOf all128 i).toNat) := by decide

theorem witness_StepRunsTheDecodedCommand :
    (busy [.command (encode (.rend nines)), .reset]).hostEvents =
      .command (encode (.rend nines)) :: [.reset] ∧
    decode (encode (.rend nines)) = .command (.rend nines) := by decide

theorem witness_StepFaultsNeverAndStopsOnlyOnReservedOpcodes :
    (busy [.command 0x07000000000000000000000000000000000000000000000000#200]).hostEvents =
      .command 0x07000000000000000000000000000000000000000000000000#200 :: [] ∧
    0x07#8 ≤ opField 0x07000000000000000000000000000000000000000000000000#200 := by decide

theorem witness_ResetReturnsTheBlockToIdle :
    (busy [.reset, .reset]).hostEvents = .reset :: [.reset] := by decide

theorem witness_FirstCommandAfterResetBehavesLikeAnyOther :
    inContract (.addl all127 all128) = true ∧
    (busy [.reset, .command (encode (.addl all127 all128)), .reset]).hostEvents =
      .reset :: .command (encode (.addl all127 all128)) :: [.reset] := by decide

theorem witness_CommandsCompleteInTheOrderPresented :
    (∀ i ∈ [Instr.enc 1000, .norm stage255, .rend nines], inContract i = true) ∧
    (busy ([Instr.enc 1000, .norm stage255, .rend nines].map fun i => .command (encode i))).hostEvents =
      ([Instr.enc 1000, .norm stage255, .rend nines].map fun i => HostEvent.command (encode i)) ++ [] := by decide

theorem witness_CommandsChangeNothingButTheirResponse : inContract (.addn zero10 all230) = true := by decide

theorem witness_ResponseDependsOnTheCommandAlone : inContract (.rend nines) = true := by decide

theorem witness_ViolationLeavesNoTraceInLaterResponses :
    inContract (.addl all128 all128) = false ∧ inContract (.addn stage256 zero10) = false ∧
    inContract (.norm stage256) = false ∧ inContract (.rend ⟨0, 0, 0, 0, 0, 0, 0, 0, 1, 10⟩) = false ∧
    inContract (.rend nines) = true := by decide

theorem witness_FieldsNotProducedAreZero :
    (∃ v, Instr.enc 7 = .enc v) ∧ (∃ a b, Instr.addl all230 nines = .addl a b) ∧
    (∃ a b, Instr.addn all128 all128 = .addn a b) ∧ (∃ a, Instr.norm stage256 = .norm a) ∧
    (∃ v, Instr.encr 7 = .encr v) ∧ ∃ a, happy a ∧ Instr.rend nines = .rend a :=
  ⟨⟨_, rfl⟩, ⟨_, _, rfl⟩, ⟨_, _, rfl⟩, ⟨_, rfl⟩, ⟨_, rfl⟩, ⟨nines, by decide, rfl⟩⟩

theorem witness_ViolationsAreExactlyTheUnspecifiedReplies :
    (∀ i, (slotOf stage255 i).toNat = (slotOf stage255 i).toNat + (slotOf zero10 i).toNat) ∧
    (∀ i, (slotOf stage256 i).toNat = (slotOf stage256 i).toNat + (slotOf zero10 i).toNat) ∧
    firstViolation (.command (.addn stage255 zero10)) = none ∧
    firstViolation (.command (.addn stage256 zero10)) = some .squeezeOverflow ∧
    firstViolation (.command (.addn all128 all128)) = some .lazySumOverflow := by decide

theorem witness_ContractKeepingHostIsNeverRefused :
    (busy [.command (encode (.norm stage255)), .reset]).hostEvents.all eventInContract = true ∧
    (busy [.command (encode (.norm stage255)), .reset]).responses.all responseWellFormed = true := by decide

theorem witness_StepKeepsTheInvariant :
    Inv (busy [.command (encode (.encr 0))]) ∧
    (match step (busy [.command (encode (.encr 0))]) with
      | .next t => t.responses.getLast?
      | .fault _ => none
      | .refused _ => none) = some 0x00000000000000000000300000000000000000000001#176 :=
  ⟨⟨by decide, by decide⟩, by decide⟩

/-- 60_exceptions.md R189: block 0 is refused on its first step, block 1 completes the commands around it. -/
theorem witness_InterleavedBlocksRunAsIfAlone :
    (runSchedule [1, 0, 1, 0] ([busy [.command 0],
        busy [.command (encode (.enc 1)), .command (encode (.norm zero10))]].map .next)).map (fun b => match b with
        | .next s => s.responses.length
        | .fault _ => 0
        | .refused _ => 0) = [0, 3] := by decide

theorem witness_SlotAdditionIsExactOrUnspecified :
    (127#8).toNat + (128#8).toNat ≤ 255 ∧ 255 < (128#8).toNat + (128#8).toNat := by decide

theorem witness_AddlGivesTheExactSlotSums :
    ∀ i, (slotOf all127 i).toNat + (slotOf all128 i).toNat ≤ 255 := by decide

theorem witness_AddlOutsideTheContractDrawsItsAccumulator :
    ∃ i, 255 < (slotOf ⟨128, 0, 0, 0, 0, 0, 0, 0, 0, 0⟩ i).toNat +
      (slotOf ⟨128, 0, 0, 0, 0, 0, 0, 0, 0, 0⟩ i).toNat := by decide

theorem witness_AddlLaws :
    (∀ i, (slotOf all127 i).toNat + (slotOf all128 i).toNat ≤ 255) ∧
    ∀ i, (slotOf all127 i).toNat + (slotOf all127 i).toNat +
      (slotOf ⟨1, 1, 1, 1, 1, 1, 1, 1, 1, 1⟩ i).toNat ≤ 255 := by decide

theorem witness_TwentyEightHappyAddendsSumLazily :
    (List.replicate 28 nines).length ≤ 28 ∧ ∀ x ∈ List.replicate 28 nines, happy x := by
  constructor
  · decide
  · intro x hx
    rw [List.eq_of_mem_replicate hx]
    decide

theorem witness_AddnGivesTheNormalizedSum :
    (∀ i, (slotOf stage255 i).toNat = (slotOf stage255 i).toNat + (slotOf zero10 i).toNat) ∧
    (∀ i, stageInput stage255 i ≤ 255) ∧
    happy (dec10 4294967295) ∧ val (dec10 4294967295) < 2 ^ 32 := by decide

theorem witness_AddnPreconditionAndWhatHappensOutsideIt :
    (∃ i, 255 < (slotOf all128 i).toNat + (slotOf all128 i).toNat) ∧
    ((∀ i, (slotOf stage256 i).toNat = (slotOf stage256 i).toNat + (slotOf zero10 i).toNat) ∧
      ∃ i, 255 < stageInput stage256 i) ∧
    ∀ i, (slotOf all230 i).toNat + (slotOf zero10 i).toNat ≤ 230 := by decide

theorem witness_NormOutsideTheContractDrawsItsAccumulator : ∃ i, 255 < stageInput stage256 i := by decide

theorem witness_NormClosedForm : ∀ i, stageInput stage255 i ≤ 255 := by decide

theorem witness_NormResultIsHappyExactlyBelowTenToTheTenth :
    (∀ i, stageInput nines i ≤ 255) ∧ val nines < 10 ^ 10 ∧
    (∀ i, stageInput ⟨10, 0, 0, 0, 0, 0, 0, 0, 0, 0⟩ i ≤ 255) ∧
    ¬ val ⟨10, 0, 0, 0, 0, 0, 0, 0, 0, 0⟩ < 10 ^ 10 := by decide

theorem witness_NormLeavesSlotZeroUndivided :
    (∀ i, stageInput ⟨9, 9, 9, 9, 9, 9, 9, 9, 9, 10⟩ i ≤ 255) ∧
    10 ^ 10 ≤ val ⟨9, 9, 9, 9, 9, 9, 9, 9, 9, 10⟩ := by decide

theorem witness_NormIsIdentityOnHappyAndIdempotent :
    happy nines ∧ respondsAccum (.norm ⟨0, 0, 0, 0, 0, 0, 0, 0, 9, 10⟩) ⟨0, 0, 0, 0, 0, 0, 0, 1, 0, 0⟩ :=
  ⟨by decide, fun _ => rfl⟩

theorem witness_SlotsUpTo230MeetTheNormPrecondition : ∀ i, (slotOf all230 i).toNat ≤ 230 := by decide

theorem witness_SqueezeIsSafeAfterTwentyFiveHappyAddends :
    (List.replicate 25 nines).length ≤ 25 ∧ ∀ x ∈ List.replicate 25 nines, happy x := by
  constructor
  · decide
  · intro x hx
    rw [List.eq_of_mem_replicate hx]
    decide

theorem witness_NoEncViolatesTheOverflowContract :
    scanOrder.Nodup ∧ ([0, 31] : List (Fin 32)).Nodup := by decide

theorem witness_ScanOrderIsNotObservable :
    scanOrder.reverse.Perm scanOrder ∧ ([31, 0, 5] : List (Fin 32)).Nodup := ⟨List.reverse_perm _, by decide⟩

theorem witness_EncrGivesTheDecimalString :
    (lenField 0x0402090409060702090534323934393637323935000A#176).toNat ≤ (10 : Fin 11).val ∧
    (lenField 0x00000000000000000000300000000000000000000001#176).toNat ≤ (1 : Fin 11).val := by decide

theorem witness_RendEmitsTheDigitsFromTheFirstNonZeroSlot :
    (happy ⟨0, 0, 0, 0, 0, 0, 0, 0, 0, 1⟩ ∧
      (∀ i : Fin 10, i < 9 → slotOf ⟨0, 0, 0, 0, 0, 0, 0, 0, 0, 1⟩ i = 0#8) ∧
      slotOf ⟨0, 0, 0, 0, 0, 0, 0, 0, 0, 1⟩ 9 ≠ 0#8) ∧
    (happy nines ∧ (∀ i : Fin 10, i < 0 → slotOf nines i = 0#8) ∧ slotOf nines 0 ≠ 0#8) := by decide

theorem witness_RendGivesTheCanonicalDecimalString : happy nines ∧ happy zero10 := by decide

theorem witness_RendOutsideTheContractDrawsItsText :
    ∃ i, 9 < (slotOf ⟨0, 0, 0, 0, 0, 0, 0, 0, 1, 10⟩ i).toNat := by decide

theorem witness_BothWaysToReadATextAgree :
    (∃ v, Instr.encr 0 = .encr v) ∧ ∃ a, happy a ∧ Instr.rend nines = .rend a :=
  ⟨⟨_, rfl⟩, ⟨nines, by decide, rfl⟩⟩

theorem witness_PseudoCommandsExpandAsListed :
    operandValue [] (.literal [4, 9, 9, 9, 9, 9, 9, 9, 9, 9]) = some ⟨4, 9, 9, 9, 9, 9, 9, 9, 9, 9⟩ ∧
    inContract (.addn ⟨4, 9, 9, 9, 9, 9, 9, 9, 9, 9⟩ ⟨4, 9, 9, 9, 9, 9, 9, 9, 9, 9⟩) = true ∧
    2 * val ⟨4, 9, 9, 9, 9, 9, 9, 9, 9, 9⟩ < 10 ^ 10 ∧
    operandValue [("x", ⟨some 0x00000000000000000001#80, 0#88, 0#8⟩)] (.name "x") =
      some ⟨0, 0, 0, 0, 0, 0, 0, 0, 0, 1⟩ := by decide

theorem witness_ScriptLineNamesItsResponse :
    expand [("x", ⟨some 0x00000000000000000001#80, 0#88, 0#8⟩)] (.dbl (.name "x")) =
      some (.addn ⟨0, 0, 0, 0, 0, 0, 0, 0, 0, 1⟩ ⟨0, 0, 0, 0, 0, 0, 0, 0, 0, 1⟩) ∧
    inContract (.addn ⟨0, 0, 0, 0, 0, 0, 0, 0, 0, 1⟩ ⟨0, 0, 0, 0, 0, 0, 0, 0, 0, 1⟩) = true ∧
    "x" ≠ "y" ∧
    expand [] (.norm (.name "x")) = none ∧
    expand [] (.utoa 4294967295) = some (.encr 4294967295) ∧
    expand [] (.rend (.literal [0, 0, 0, 0, 0, 0, 0, 0, 1, 10])) = some (.rend ⟨0, 0, 0, 0, 0, 0, 0, 0, 1, 10⟩) ∧
    inContract (.rend ⟨0, 0, 0, 0, 0, 0, 0, 0, 1, 10⟩) = false := by decide

end Sys2Proof.Tests
end

section
/-! SUPPORT. Proofs of the statements on a step and on slot addition (00_scope.md R12, R13, R14). -/

namespace Sys2Proof.Proofs

open Sys2Proof.Machine Sys2Proof.Safety Sys2Proof.Laws

/-- Settles O27: slot addition answers exactly the sums that fit a byte (00_scope.md R12). -/
theorem slotAdditionIsExactOrUnspecified : Obligations.SlotAdditionIsExactOrUnspecified := by
  intro x y
  refine ⟨fun hfits => ?_, slotAdd_eq_none.mpr⟩
  obtain ⟨z, hz⟩ := Option.ne_none_iff_exists'.mp (mt slotAdd_eq_none.mp (Nat.not_lt.mpr hfits))
  exact ⟨z, hz, slotAdd_eq_some.mp hz⟩

/-- Settles O13: a presented word is taken off and runs as the command it decodes to (00_scope.md R13). -/
theorem stepRunsTheDecodedCommand : Obligations.StepRunsTheDecodedCommand := by
  intro s cw rest i hevents hdecode
  rw [step_command hevents, runCommand_of_command hdecode]

/-- Every command completes, inside its contract and outside it (60_exceptions.md R180). -/
theorem exec_completes (i : Instr) (s : State) : ∃ t, exec i s = .next t :=
  ⟨_, (exec_eq_respond i s).trans (respond_eq (replyOf i) s)⟩

/-- A word that a contract-keeping host presents has a defined opcode (60_exceptions.md R191). -/
theorem decode_of_eventInContract {cw : CommandWord} (h : eventInContract (.command cw) = true) :
    ∃ i, decode cw = .command i := by
  cases hd : decode cw with
  | command i => exact ⟨i, rfl⟩
  | reserved op => simp [eventInContract, hd, firstViolation] at h

/-- The host's next action keeps the contract where the invariant holds. -/
theorem eventInContract_of_inv {s : State} {e : HostEvent} {es : List HostEvent} (hinv : Inv s)
    (h : s.hostEvents = e :: es) : eventInContract e = true :=
  List.all_eq_true.mp hinv.1 e (h ▸ List.mem_cons_self)

/-- Settles O23: only a reserved opcode is refused, and the invariant keeps the host from presenting one. -/
theorem contractKeepingHostIsNeverRefused : Obligations.ContractKeepingHostIsNeverRefused := by
  intro s hinv
  match hevents : s.hostEvents with
  | [] => exact ⟨s, step_idle hevents⟩
  | .reset :: es => exact ⟨_, step_reset hevents⟩
  | .command cw :: es =>
    obtain ⟨i, hdecode⟩ := decode_of_eventInContract (eventInContract_of_inv hinv hevents)
    rw [step_command hevents, runCommand_of_command hdecode]
    exact exec_completes i _

end Sys2Proof.Proofs
end

section
/-! SUPPORT. Proofs of the statements on several blocks side by side and on the reset state (60_exceptions.md R189,
10_state.md R34). -/

namespace Sys2Proof.Proofs

open Sys2Proof.Machine Sys2Proof.Safety Sys2Proof.Laws

/-- Settles O24: nothing is presented and nothing has been answered right after reset (70_reset_and_hazards.md R200). -/
theorem invariantHoldsAtReset : Obligations.InvariantHoldsAtReset := by
  constructor
  · rw [reset_hostEvents, List.all_nil]
  · rw [reset_responses, List.all_nil]

/-- A refused block stays refused however often it is stepped. -/
theorem iterate_advance_refused (r : Refusal) (n : Nat) : Block.advance^[n] (.refused r) = .refused r :=
  Function.iterate_fixed (advance_refused r) n

/-- Stepping one block `n` times is running it for `n` steps: after its end it stays as its run ended. -/
theorem iterate_advance_next (n : Nat) (s : State) : Block.advance^[n] (.next s) = runSteps n s := by
  induction n generalizing s with
  | zero => rfl
  | succ n ih =>
    rw [Function.iterate_succ_apply, advance_next]
    match hstep : step s with
    | .next t => rw [ih, runSteps_succ_of_next n hstep]
    | .refused r => rw [iterate_advance_refused, runSteps_succ_of_refused n hstep]

/-- A schedule steps block `j` as often as it names `j`, and touches it in no other way. -/
theorem getElem?_runSchedule (js : List Nat) (c : Cluster) (j : Nat) :
    getElem? (runSchedule js c) j = (getElem? c j).map Block.advance^[js.count j] := by
  induction js generalizing c with
  | nil => simp
  | cons k js ih =>
    rw [runSchedule_cons, ih]
    by_cases hk : k = j
    · subst hk
      rw [stepBlock_same, Option.map_map, List.count_cons_self, Function.iterate_succ]
    · rw [stepBlock_other c hk, List.count_cons_of_ne hk]

/-- Settles O26: block `j` meets only its own steps, and those are its run alone (60_exceptions.md R189). -/
theorem interleavedBlocksRunAsIfAlone : Obligations.InterleavedBlocksRunAsIfAlone := by
  intro js ss j
  have hrun : Block.advance^[js.count j] ∘ .next = runSteps (js.count j) :=
    funext (iterate_advance_next _)
  rw [getElem?_runSchedule, List.getElem?_map, Option.map_map, hrun]

end Sys2Proof.Proofs
end

section
/-! SUPPORT. The squeeze against the stage inputs: where it answers, and with which slots (41_normalize.md R123,
R126). -/

namespace Sys2Proof.Proofs

open Sys2Proof.Machine Sys2Proof.Laws

/-- The accumulator value with the given slot values, wherever they fit a byte. -/
theorem exists_accum {f : Fin 10 → Nat} (hf : ∀ i, f i ≤ 255) : ∃ a, ∀ i, (slotOf a i).toNat = f i := by
  refine ⟨ofSlots fun i => BitVec.ofNat 8 (f i), fun i => ?_⟩
  have := hf i
  rw [slotOf_ofSlots, BitVec.toNat_ofNat]
  omega

theorem slot_le (a : Accum) (i : Fin 10) : (slotOf a i).toNat ≤ 255 :=
  Nat.le_of_lt_succ (slotOf a i).isLt

/-- `t_(i-1) = a[i-1] + floor(t_i / 10)` (41_normalize.md R123). -/
theorem stageInput_castSucc (a : Accum) (i : Fin 9) :
    stageInput a i.castSucc = (slotOf a i.castSucc).toNat + stageInput a i.succ / 10 := by
  fin_cases i <;> rfl

/-- Larger slots give larger stage inputs. -/
theorem stageInput_mono {a b : Accum} (h : ∀ i, (slotOf a i).toNat ≤ (slotOf b i).toNat) (i : Fin 10) :
    stageInput a i ≤ stageInput b i := by
  induction i using Fin.reverseInduction with
  | last => exact h 9
  | cast i ih =>
    rw [stageInput_castSucc, stageInput_castSucc]
    exact Nat.add_le_add (h _) (Nat.div_le_div_right ih)

/-- Slot `i` of the working accumulator before stage `n` of the squeeze of `a`: untouched to the left of `n`, the stage
input in slot `n`, the result to its right. -/
def workingSlot (a : Accum) (n i : Fin 10) : Nat :=
  if i < n then (slotOf a i).toNat else if i = n then stageInput a n else stageInput a i % 10

theorem workingSlot_left {a : Accum} {n i : Fin 10} (h : i < n) : workingSlot a n i = (slotOf a i).toNat := if_pos h

@[simp] theorem workingSlot_same (a : Accum) (n : Fin 10) : workingSlot a n n = stageInput a n := by simp [workingSlot]

theorem workingSlot_right {a : Accum} {n i : Fin 10} (h : n < i) : workingSlot a n i = stageInput a i % 10 := by
  simp [workingSlot, h.not_gt, h.ne']

/-- The working accumulator before stage `n` of the squeeze of `a` is `w`. -/
def SqueezedTo (a : Accum) (n : Fin 10) (w : Accum) : Prop := ∀ i, (slotOf w i).toNat = workingSlot a n i

theorem SqueezedTo.start (a : Accum) : SqueezedTo a 9 a := by
  intro i
  by_cases hi : i = 9
  · subst hi
    exact (workingSlot_same a 9).symm
  · exact (workingSlot_left (Fin.lt_last_iff_ne_last.mpr hi)).symm

theorem SqueezedTo.unique {a w w' : Accum} {n : Fin 10} (h : SqueezedTo a n w) (h' : SqueezedTo a n w') : w = w' :=
  accum_ext fun i => BitVec.eq_of_toNat_eq ((h i).trans (h' i).symm)

/-- A working accumulator can hold a stage input exactly where it fits a byte. -/
theorem exists_squeezedTo_iff {a : Accum} {n : Fin 10} : (∃ w, SqueezedTo a n w) ↔ stageInput a n ≤ 255 := by
  constructor
  · rintro ⟨w, hw⟩
    rw [← workingSlot_same, ← hw n]
    exact slot_le w n
  · intro hn
    refine exists_accum fun i => ?_
    rcases lt_trichotomy i n with hi | rfl | hi
    · exact workingSlot_left hi ▸ slot_le a i
    · rwa [workingSlot_same]
    · rw [workingSlot_right hi]
      omega

/-- Slots other than a stage's own and its left neighbour pass the stage as they are. -/
theorem workingSlot_castSucc_of_ne {a : Accum} {n : Fin 9} {i : Fin 10} (h : i ≠ n.succ) (h' : i ≠ n.castSucc) :
    workingSlot a n.castSucc i = workingSlot a n.succ i := by
  rcases h'.lt_or_gt with hi | hi
  · rw [workingSlot_left hi, workingSlot_left (hi.trans Fin.castSucc_lt_succ)]
  · have hright : n.succ < i := lt_of_le_of_ne (Fin.castSucc_lt_iff_succ_le.mp hi) h.symm
    rw [workingSlot_right hi, workingSlot_right hright]

/-- A stage of the squeeze moves the working accumulator one slot to the left. -/
theorem squeezeStage_of_squeezedTo {a w w' : Accum} {n : Fin 9} (h : SqueezedTo a n.succ w) :
    squeezeStage w n.succ = some w' ↔ SqueezedTo a n.castSucc w' := by
  have hpred : n.succ - 1 = n.castSucc := by clear h; revert n; decide
  have hown : (slotOf w n.succ).toNat = stageInput a n.succ := (h _).trans (workingSlot_same a _)
  have hleft : (slotOf w n.castSucc).toNat = (slotOf a n.castSucc).toNat :=
    (h _).trans (workingSlot_left Fin.castSucc_lt_succ)
  have hother {i : Fin 10} (hi : i ≠ n.succ) (hi' : i ≠ n.castSucc) :
      slotOf w' i = slotOf w i ↔ (slotOf w' i).toNat = workingSlot a n.castSucc i := by
    rw [workingSlot_castSucc_of_ne hi hi', ← h i, BitVec.toNat_inj]
  rw [squeezeStage_eq_some (Fin.succ_ne_zero n), hpred, hown, hleft, ← stageInput_castSucc]
  constructor
  · rintro ⟨hl, ho, hrest⟩ i
    by_cases hi : i = n.succ
    · subst hi
      rw [ho, workingSlot_right Fin.castSucc_lt_succ]
    · by_cases hi' : i = n.castSucc
      · subst hi'
        rw [hl, workingSlot_same]
      · exact (hother hi hi').mp (hrest i hi hi')
  · intro hw'
    refine ⟨?_, ?_, fun i hi hi' => (hother hi hi').mpr (hw' i)⟩
    · rw [hw', workingSlot_same]
    · rw [hw', workingSlot_right Fin.castSucc_lt_succ]

/-- The stages from `n` down to 1. -/
theorem drop_stageOrder_succ : ∀ n : Fin 9,
    stageOrder.drop (9 - n.succ.val) = n.succ :: stageOrder.drop (9 - n.castSucc.val) := by decide

/-- The stages from `n` down to 1 complete exactly where every stage input to the left of `n` fits a byte. -/
theorem squeezeFrom_of_squeezedTo {a c : Accum} (n : Fin 10) {w : Accum} (h : SqueezedTo a n w) :
    squeezeFrom (stageOrder.drop (9 - n.val)) w = some c ↔ (∀ i < n, stageInput a i ≤ 255) ∧ SqueezedTo a 0 c := by
  induction n using Fin.induction generalizing w with
  | zero =>
    have hdone : squeezeFrom (stageOrder.drop (9 - (0 : Fin 10).val)) w = some w := squeezeFrom_nil w
    rw [hdone, Option.some.injEq]
    exact ⟨fun hwc => ⟨fun i hi => absurd hi (Fin.not_lt_zero i), hwc ▸ h⟩, fun hc => h.unique hc.2⟩
  | succ n ih =>
    have hsplit : (∀ i < n.succ, stageInput a i ≤ 255) ↔
        (∀ i < n.castSucc, stageInput a i ≤ 255) ∧ ∃ w', SqueezedTo a n.castSucc w' := by
      simp only [exists_squeezedTo_iff, ← Fin.le_castSucc_iff, le_iff_lt_or_eq, or_imp, forall_and, forall_eq]
    rw [drop_stageOrder_succ, squeezeFrom_cons, Option.bind_eq_some_iff, hsplit]
    constructor
    · rintro ⟨w', hstage, hrest⟩
      have hw' := (squeezeStage_of_squeezedTo h).mp hstage
      obtain ⟨hfits, hc⟩ := (ih hw').mp hrest
      exact ⟨⟨hfits, w', hw'⟩, hc⟩
    · rintro ⟨⟨hfits, w', hw'⟩, hc⟩
      exact ⟨w', (squeezeStage_of_squeezedTo h).mpr hw', (ih hw').mpr ⟨hfits, hc⟩⟩

/-- The squeeze answers `c` exactly where every stage input fits a byte and `c` holds `t_0` in slot 0 and the last
digits of the others (41_normalize.md R123, R126). -/
theorem squeeze_eq_some {a c : Accum} : squeeze a = some c ↔
    squeezeFits a ∧ (slotOf c 0).toNat = stageInput a 0 ∧ ∀ i, i ≠ 0 → (slotOf c i).toNat = stageInput a i % 10 := by
  have hsqueeze : squeeze a = some c ↔ (∀ i < 9, stageInput a i ≤ 255) ∧ SqueezedTo a 0 c :=
    squeezeFrom_of_squeezedTo 9 (.start a)
  have hnine : stageInput a 9 ≤ 255 := slot_le a 9
  rw [hsqueeze]
  constructor
  · rintro ⟨hfits, hc⟩
    refine ⟨fun i => ?_, (hc 0).trans (workingSlot_same a 0),
      fun i hi => (hc i).trans (workingSlot_right (Fin.pos_iff_ne_zero.mpr hi))⟩
    rcases eq_or_ne i 9 with rfl | hi
    · exact hnine
    · exact hfits i (Fin.lt_last_iff_ne_last.mpr hi)
  · rintro ⟨hfits, hzero, hright⟩
    refine ⟨fun i _ => hfits i, fun i => ?_⟩
    rcases eq_or_ne i 0 with rfl | hi
    · rw [hzero, workingSlot_same]
    · rw [hright i hi, workingSlot_right (Fin.pos_iff_ne_zero.mpr hi)]

/-- NORM's precondition is that the squeeze answers (41_normalize.md R124). -/
theorem isSome_squeeze (a : Accum) : (squeeze a).isSome = decide (squeezeFits a) := by
  rw [Bool.eq_iff_iff, Option.isSome_iff_exists, decide_eq_true_iff]
  constructor
  · rintro ⟨c, hc⟩
    exact (squeeze_eq_some.mp hc).1
  · intro hfits
    have hzero : ∃ w, SqueezedTo a 0 w := exists_squeezedTo_iff.mpr (hfits 0)
    obtain ⟨c, hc⟩ := hzero
    exact ⟨c, (squeezeFrom_of_squeezedTo 9 (.start a)).mpr ⟨fun i _ => hfits i, hc⟩⟩

end Sys2Proof.Proofs
end

section
/-! SUPPORT. The encoder answers for every input, with a happy accumulator (42_encode.md R143, R145, R146). -/

namespace Sys2Proof.Proofs

open Sys2Proof.Machine Sys2Proof.Safety Sys2Proof.Laws

/-- What scan position `k` adds to slot `i`: the digit of the ROM entry where bit `k` is set (42_encode.md R143). -/
def scanDigit (v : BitVec 32) (i : Fin 10) (k : Fin 32) : Nat :=
  if v.getLsbD k.val then (slotOf (romRead k) i).toNat else 0

theorem scanDigit_le (v : BitVec 32) (i : Fin 10) (k : Fin 32) : scanDigit v i k ≤ (slotOf (romRead k) i).toNat := by
  unfold scanDigit
  split
  · exact le_rfl
  · exact Nat.zero_le _

theorem scanPosition_eq_some_iff {v : BitVec 32} {w w' : Accum} {k : Fin 32} :
    scanPosition v w k = some w' ↔ ∀ i, (slotOf w' i).toNat = (slotOf w i).toNat + scanDigit v i k :=
  scanPosition_eq_some

/-- A scan answers exactly where every slot's sum of selected digits fits a byte, whatever the order
(42_encode.md R143). -/
theorem scanFrom_eq_some {v : BitVec 32} {ks : List (Fin 32)} {w w' : Accum} :
    scanFrom v ks w = some w' ↔ ∀ i, (slotOf w' i).toNat = (slotOf w i).toNat + (ks.map (scanDigit v i)).sum := by
  induction ks generalizing w with
  | nil =>
    rw [scanFrom_nil, Option.some.injEq]
    constructor
    · rintro rfl i
      simp
    · intro h
      exact accum_ext fun i => BitVec.eq_of_toNat_eq (by simpa using (h i).symm)
  | cons k ks ih =>
    rw [scanFrom_cons, Option.bind_eq_some_iff]
    simp only [ih, scanPosition_eq_some_iff, List.map_cons, List.sum_cons]
    constructor
    · rintro ⟨x, hx, hrest⟩ i
      rw [hrest, hx, Nat.add_assoc]
    · intro h
      have hfits (i : Fin 10) : (slotOf w i).toNat + scanDigit v i k ≤ 255 := by
        have := h i
        have := slot_le w' i
        omega
      obtain ⟨x, hx⟩ := exists_accum hfits
      exact ⟨x, hx, fun i => by rw [h, hx, Nat.add_assoc]⟩

theorem scanOrder_perm : scanOrder.Perm (List.finRange 32) := by decide

/-- The lazy sum of ENC, slot by slot (42_encode.md R143). -/
theorem lazySum_eq_some {v : BitVec 32} {w : Accum} :
    lazySum v = some w ↔ ∀ i, (slotOf w i).toNat = ∑ k, scanDigit v i k := by
  have hsum (i : Fin 10) : (scanOrder.map (scanDigit v i)).sum = ∑ k, scanDigit v i k := by
    rw [(scanOrder_perm.map _).sum_eq, Fin.sum_univ_def]
  simp [lazySum, scanFrom_eq_some, hsum]

/-- The largest lazy sum: every ROM entry added (70_reset_and_hazards.md R211). -/
def romColumns : Accum := ofSlots fun i => BitVec.ofNat 8 (columnSums.getD i.val 0)

theorem sum_romRead : ∀ i, ∑ k, (slotOf (romRead k) i).toNat = (slotOf romColumns i).toNat := by decide

theorem stageInput_romColumns : ∀ i, stageInput romColumns i = largestStageInputs.getD i.val 0 := by decide

/-- No input's lazy sum is above the column sums, in any slot (70_reset_and_hazards.md R211). -/
theorem exists_lazySum (v : BitVec 32) :
    ∃ w, lazySum v = some w ∧ ∀ i, (slotOf w i).toNat ≤ (slotOf romColumns i).toNat := by
  have hbound (i : Fin 10) : ∑ k, scanDigit v i k ≤ (slotOf romColumns i).toNat := by
    rw [← sum_romRead]
    exact Finset.sum_le_sum fun k _ => scanDigit_le v i k
  obtain ⟨w, hw⟩ := exists_accum fun i => (hbound i).trans (slot_le romColumns i)
  exact ⟨w, lazySum_eq_some.mpr hw, fun i => hw i ▸ hbound i⟩

/-- ENC never leaves its contract, and no digit of its result is above 9: slot 0, which is not divided, is at most the
4 of the largest input (42_encode.md R145, R146). -/
theorem exists_encodeDecimal (v : BitVec 32) : ∃ c, encodeDecimal v = some c ∧ happy c := by
  obtain ⟨w, hw, hcolumns⟩ := exists_lazySum v
  have hinput (i : Fin 10) : stageInput w i ≤ largestStageInputs.getD i.val 0 :=
    stageInput_romColumns i ▸ stageInput_mono hcolumns i
  have hlargest : ∀ i : Fin 10, largestStageInputs.getD i.val 0 ≤ 255 := by decide
  have hsome : (squeeze w).isSome = true :=
    (isSome_squeeze w).trans (decide_eq_true fun i => (hinput i).trans (hlargest i))
  obtain ⟨c, hc⟩ := Option.isSome_iff_exists.mp hsome
  obtain ⟨-, hzero, hright⟩ := squeeze_eq_some.mp hc
  refine ⟨c, by simp [encodeDecimal, hw, hc], fun i => ?_⟩
  rcases eq_or_ne i 0 with rfl | hi
  · calc (slotOf c 0).toNat = stageInput w 0 := hzero
      _ ≤ 4 := hinput 0
      _ ≤ 9 := by decide
  · rw [hright i hi]
    omega

end Sys2Proof.Proofs
end

section
/-! SUPPORT. Proofs of the statements on what a command changes and what its response depends on (10_state.md R20,
R28, R30, R31; 30_encoding.md R76). -/

namespace Sys2Proof.Proofs

open Sys2Proof.Machine Sys2Proof.Safety Sys2Proof.Laws

@[simp] theorem specified_accReply (c : Option Accum) : (accReply c).specified = c.isSome := by
  simp [Reply.specified, accReply]

@[simp] theorem specified_textReply (t : Option Text) : (textReply t).specified = t.isSome := rfl

theorem isSome_addLazy (a b : Accum) : (addLazy a b).isSome = decide (lazyFits a b) := by
  unfold addLazy
  split
  next h => exact (decide_eq_true h).symm
  next h => exact (decide_eq_false h).symm

theorem isSome_render (a : Accum) : (render a).isSome = decide (happy a) := by
  unfold render
  split
  next h => exact (decide_eq_true h).symm
  next h => exact (decide_eq_false h).symm

theorem isSome_addNormalizing (a b : Accum) :
    (addNormalizing a b).isSome = (decide (lazyFits a b) && decide (squeezeFits (slotSums a b))) := by
  unfold addNormalizing
  by_cases h : lazyFits a b
  · rw [addLazy_of_fits h, decide_eq_true h, Bool.true_and]
    exact isSome_squeeze _
  · rw [addLazy_eq_none.mpr h, decide_eq_false h]
    rfl

/-- A command is inside its contract exactly when its reply has every field specified (60_exceptions.md R182). -/
theorem specified_replyOf (i : Instr) : (replyOf i).specified = inContract i := by
  cases i with
  | enc v =>
    obtain ⟨c, hc, -⟩ := exists_encodeDecimal v
    simp [replyOf, replyEnc, inContract, hc]
  | addl a b => exact (specified_accReply _).trans (isSome_addLazy a b)
  | addn a b => exact (specified_accReply _).trans (isSome_addNormalizing a b)
  | norm a => exact (specified_accReply _).trans (isSome_squeeze a)
  | rend a => exact isSome_render a
  | encr v =>
    obtain ⟨c, hc, hhappy⟩ := exists_encodeDecimal v
    calc (replyEncr v).specified = (render c).isSome := by simp [replyEncr, hc, Reply.specified]
      _ = true := (isSome_render c).trans (decide_eq_true hhappy)

/-- A reply with every field specified is one response word, from every state (10_state.md R20). -/
theorem exists_respond_of_specified {r : Reply} (h : r.specified = true) :
    ∃ rw, ∀ s, respond r s = .next (answered s rw) := by
  obtain ⟨acc, text⟩ := r
  match acc, text, h with
  | some x, some t, _ => exact ⟨_, respond_of_some x t⟩

/-- Settles O19: inside the contract every field of the reply is specified, so no free value is drawn. -/
theorem responseDependsOnTheCommandAlone : Obligations.ResponseDependsOnTheCommandAlone := by
  intro i hi
  obtain ⟨rw, hrw⟩ := exists_respond_of_specified ((specified_replyOf i).trans hi)
  exact ⟨rw, fun s => (exec_eq_respond i s).trans (hrw s)⟩

/-- Settles O18: a command is its reply given, and only an unspecified reply moves the counter of draws. -/
theorem commandsChangeNothingButTheirResponse : Obligations.CommandsChangeNothingButTheirResponse := by
  intro i s
  rw [exec_eq_respond, respond_eq, specified_replyOf]
  cases inContract i with
  | true => exact ⟨_, 0, rfl, Nat.zero_le 1, fun _ => rfl⟩
  | false => exact ⟨_, 1, rfl, le_rfl, fun h => absurd h Bool.false_ne_true⟩

end Sys2Proof.Proofs
end

section
/-! SUPPORT. Proofs of the statements on packing and on the constant memories (20_memory.md R41, R45, R55, R56). -/

namespace Sys2Proof.Proofs

open Sys2Proof.Machine Sys2Proof.Safety Sys2Proof.Laws

/-- Slot `i` of a packed accumulator is bits `[79-8i : 72-8i]` (20_memory.md R55). -/
theorem slice_pack (a : Accum) (i : Fin 10) : a.pack.extractLsb' (72 - 8 * i.val) 8 = slotOf a i := by
  fin_cases i <;>
    simp (disch := decide) only [Accum.pack, slotOf, slice_append_high, slice_append_low, Nat.reduceMul, Nat.reduceSub,
      slice_whole]

/-- Slot `i` of an unpacked field is its bits `[79-8i : 72-8i]` (20_memory.md R55). -/
theorem slotOf_unpack (x : BitVec 80) (i : Fin 10) :
    slotOf (Accum.unpack x) i = x.extractLsb' (72 - 8 * i.val) 8 := by
  fin_cases i <;> rfl

/-- Two packed accumulators with the same ten bytes are the same. -/
theorem packed_ext {x y : BitVec 80}
    (h : ∀ i : Fin 10, x.extractLsb' (72 - 8 * i.val) 8 = y.extractLsb' (72 - 8 * i.val) 8) : x = y := by
  apply BitVec.eq_of_getLsbD_eq
  intro j hj
  have hbit := congrArg (·.getLsbD (j % 8)) (h ⟨9 - j / 8, by omega⟩)
  have hpos : 72 - 8 * (9 - j / 8) + j % 8 = j := by omega
  have hlt : j % 8 < 8 := Nat.mod_lt j (by decide)
  simpa [hpos, hlt] using hbit

@[simp] theorem unpack_pack (a : Accum) : Accum.unpack a.pack = a :=
  accum_ext fun i => (slotOf_unpack a.pack i).trans (slice_pack a i)

@[simp] theorem pack_unpack (x : BitVec 80) : (Accum.unpack x).pack = x :=
  packed_ext fun i => (slice_pack _ i).trans (slotOf_unpack x i)

/-- Settles O7: a slot of either side is the same byte of the packed field, so both inverses hold slot by slot. -/
theorem packingPutsSlotZeroInTheTopByte : Obligations.PackingPutsSlotZeroInTheTopByte :=
  ⟨slice_pack, unpack_pack, pack_unpack⟩

/-- Character `j` of a packed text is the `j`-th of the list, or the fill byte behind its end (20_memory.md R56,
43_render.md R166). -/
theorem charAt_packText (chars : List Byte) (j : Fin 11) : charAt (packText chars) j = chars.getD j.val Config.nul := by
  fin_cases j <;>
    simp (disch := decide) only [charAt, packText, slice_append_high, slice_append_low, Nat.reduceMul, Nat.reduceSub,
      slice_whole]

/-- Settles O8: the first clause is `charAt` of a packed text, the second is one text packed. -/
theorem textPackingPutsFirstCharacterInTheTopByte : Obligations.TextPackingPutsFirstCharacterInTheTopByte :=
  ⟨charAt_packText, by decide⟩

/-- The slots of a happy value are the decimal digits of the number it stands for (00_scope.md R10). -/
theorem slotOf_eq_digit_of_happy {a : Accum} (h : happy a) (i : Fin 10) :
    (slotOf a i).toNat = val a / placeValue i % 10 := by
  have hdigits := forall_slot.mp h
  simp only [slotOf] at hdigits
  revert i
  rw [forall_slot]
  simp only [slotOf, val, placeValue, Fin.coe_ofNat_eq_mod, Nat.reduceMod, Nat.reduceSub, Nat.reducePow]
  omega

/-- A happy value is the decimal expansion of the number it stands for (00_scope.md R10). -/
theorem dec10_val_of_happy {a : Accum} (h : happy a) : dec10 (val a) = a := by
  refine accum_ext fun i => BitVec.eq_of_toNat_eq ?_
  rw [dec10, slotOf_ofSlots, ← slotOf_eq_digit_of_happy h i, BitVec.ofNat_toNat, BitVec.setWidth_eq]

/-- Settles O10: an entry is happy and stands for `2^k`, so that its slots are the digits of `2^k`. -/
theorem romEntriesAreThePowersOfTwo : Obligations.RomEntriesAreThePowersOfTwo := by
  intro k
  have hhappy := happy_romRead k
  have hval := val_romRead k
  refine ⟨fun i => ?_, ?_, hval, hhappy⟩
  · rw [slotOf_eq_digit_of_happy hhappy, hval, placeValue]
  · rw [← hval, dec10_val_of_happy hhappy]

/-- Settles O11: the ranges and the last equation follow from the two table laws (20_memory.md R45, R46). -/
theorem carryTablesAreQuotientAndRemainderByTen : Obligations.CarryTablesAreQuotientAndRemainderByTen := by
  intro b
  have hb := b.isLt
  rw [qLook_toNat, rLook_toNat]
  omega

end Sys2Proof.Proofs
end

section
/-! SUPPORT. Proof of the statement on the overflow contract of ENC (70_reset_and_hazards.md R211). -/

namespace Sys2Proof.Proofs

open Sys2Proof.Machine Sys2Proof.Safety Sys2Proof.Laws

theorem toNat_slotOf_romColumns : ∀ i, (slotOf romColumns i).toNat = columnSums.getD i.val 0 := by decide

/-- The number of ROM entries with a non-zero digit in each column (70_reset_and_hazards.md R211). -/
theorem card_nonzero_romRead :
    (List.finRange 10).map (fun i => (Finset.univ.filter fun k : Fin 32 => slotOf (romRead k) i ≠ 0#8).card) =
      [2, 4, 8, 12, 13, 17, 21, 21, 26, 32] := by decide

/-- A scan that visits no position twice adds at most the whole column (70_reset_and_hazards.md R211). -/
theorem sum_scanDigit_le (v : BitVec 32) (i : Fin 10) {ks : List (Fin 32)} (h : ks.Nodup) :
    (ks.map (scanDigit v i)).sum ≤ (slotOf romColumns i).toNat := by
  calc (ks.map (scanDigit v i)).sum = ∑ k ∈ ks.toFinset, scanDigit v i k := (List.sum_toFinset _ h).symm
    _ ≤ ∑ k, scanDigit v i k := Finset.sum_le_sum_of_subset (Finset.subset_univ _)
    _ ≤ ∑ k, (slotOf (romRead k) i).toNat := Finset.sum_le_sum fun k _ => scanDigit_le v i k
    _ = (slotOf romColumns i).toNat := sum_romRead i

/-- A scan that visits no position twice completes, in any order, with no slot above its column sum
(70_reset_and_hazards.md R211). -/
theorem exists_scanFrom_zero10 (v : BitVec 32) {ks : List (Fin 32)} (h : ks.Nodup) :
    ∃ w, scanFrom v ks zero10 = some w ∧ ∀ i, (slotOf w i).toNat ≤ (slotOf romColumns i).toNat := by
  have hbound (i : Fin 10) := sum_scanDigit_le v i h
  obtain ⟨w, hw⟩ := exists_accum fun i => (hbound i).trans (slot_le romColumns i)
  exact ⟨w, scanFrom_eq_some.mpr (by simp [hw]), fun i => hw i ▸ hbound i⟩

theorem scanDigit_allOnes (i : Fin 10) (k : Fin 32) :
    scanDigit 0xFFFFFFFF#32 i k = (slotOf (romRead k) i).toNat :=
  if_pos (by revert k; decide)

/-- The all-ones input adds every ROM entry (70_reset_and_hazards.md R211). -/
theorem lazySum_allOnes : lazySum 0xFFFFFFFF#32 = some romColumns :=
  lazySum_eq_some.mpr fun i => by simp only [scanDigit_allOnes, sum_romRead]

theorem squeeze_romColumns : squeeze romColumns = some ⟨4, 2, 9, 4, 9, 6, 7, 2, 9, 5⟩ := by decide

/-- A command whose reply is the specified accumulator `c` completes with it from every state (30_encoding.md R77). -/
theorem respondsAccum_of_replyOf {i : Instr} {c : Accum} (h : replyOf i = accReply (some c)) : respondsAccum i c := by
  intro s
  rw [exec_eq_respond, h, respond_accReply_some]

/-- Settles O45: the all-ones input adds every ROM entry, and no other scan without repetition exceeds it in any slot;
stage inputs grow with the slots. -/
theorem noEncViolatesTheOverflowContract : Obligations.NoEncViolatesTheOverflowContract := by
  have henc : encodeDecimal 0xFFFFFFFF#32 = some ⟨4, 2, 9, 4, 9, 6, 7, 2, 9, 5⟩ := by
    rw [encodeDecimal, lazySum_allOnes]
    exact squeeze_romColumns
  refine ⟨fun i => (sum_romRead i).trans (toNat_slotOf_romColumns i), card_nonzero_romRead,
    ⟨romColumns, lazySum_allOnes, toNat_slotOf_romColumns, stageInput_romColumns⟩,
    respondsAccum_of_replyOf (congrArg accReply henc), ?_, ?_⟩
  · intro v ks hks
    simpa only [toNat_slotOf_romColumns] using exists_scanFrom_zero10 v hks
  · intro v
    obtain ⟨w, hw, hcolumns⟩ := exists_lazySum v
    exact ⟨w, hw, fun i => stageInput_romColumns i ▸ stageInput_mono hcolumns i⟩

end Sys2Proof.Proofs
end

section
/-! SUPPORT. Proofs of the statements on the decoder and the encoder (30_encoding.md R72, R74, R75, R79). -/

namespace Sys2Proof.Proofs

open Sys2Proof.Machine Sys2Proof.Safety Sys2Proof.Laws

/-- The reserved opcodes (30_encoding.md R75). -/
def reservedOp (op : Byte) : Prop := op = 0x00#8 ∨ 0x07#8 ≤ op

/-- An opcode names one of the six operations or is reserved (30_encoding.md R72, R75). -/
theorem opcode_cases (op : Byte) :
    op = 0x01#8 ∨ op = 0x02#8 ∨ op = 0x03#8 ∨ op = 0x04#8 ∨ op = 0x05#8 ∨ op = 0x06#8 ∨ reservedOp op := by
  unfold reservedOp
  bv_omega

section DecodeRows

variable {cw : CommandWord}

theorem decode_enc (h : opField cw = 0x01#8) : decode cw = .command (.enc (vField cw)) := by simp [decode, h]

theorem decode_addl (h : opField cw = 0x02#8) :
    decode cw = .command (.addl (Accum.unpack (aField cw)) (Accum.unpack (bField cw))) := by simp [decode, h]

theorem decode_addn (h : opField cw = 0x03#8) :
    decode cw = .command (.addn (Accum.unpack (aField cw)) (Accum.unpack (bField cw))) := by simp [decode, h]

theorem decode_norm (h : opField cw = 0x04#8) : decode cw = .command (.norm (Accum.unpack (aField cw))) := by
  simp [decode, h]

theorem decode_rend (h : opField cw = 0x05#8) : decode cw = .command (.rend (Accum.unpack (aField cw))) := by
  simp [decode, h]

theorem decode_encr (h : opField cw = 0x06#8) : decode cw = .command (.encr (vField cw)) := by simp [decode, h]

theorem decode_reserved (h : reservedOp (opField cw)) : decode cw = .reserved (opField cw) := by
  have hne {op : Byte} (hop : ¬ reservedOp op) : opField cw ≠ op := fun heq => hop (heq ▸ h)
  simp [decode, hne, reservedOp]

end DecodeRows

/-- The decoder reads back the opcode and each operand field that the encoder wrote (30_encoding.md R79). -/
@[simp] theorem decode_encode (i : Instr) : decode (encode i) = .command i := by
  cases i with
  | enc v => simp [encode, decode_enc]
  | addl a b => simp [encode, decode_addl]
  | addn a b => simp [encode, decode_addn]
  | norm a => simp [encode, decode_norm]
  | rend a => simp [encode, decode_rend]
  | encr v => simp [encode, decode_encr]

/-- Settles O3: every command is well formed, and decoding undoes encoding for each. -/
theorem encodedCommandsDecodeBack : Obligations.EncodedCommandsDecodeBack := fun i _ => decode_encode i

/-- The encoder's words are canonical (30_encoding.md R74). -/
theorem isCanonical_encode (i : Instr) : isCanonical (encode i) = true := by
  cases i with
  | enc v => exact (EncodedFields.enc v).2
  | addl a b => exact (EncodedFields.addl a b).2
  | addn a b => exact (EncodedFields.addn a b).2
  | norm a => exact (EncodedFields.norm a).2
  | rend a => exact (EncodedFields.rend a).2
  | encr v => exact (EncodedFields.encr v).2

/-- A command word is its four fields (30_encoding.md R71). -/
theorem commandWord_fields (cw : CommandWord) :
    commandWord (opField cw) (vField cw) (aField cw) (bField cw) = cw := by
  unfold commandWord opField vField aField bField
  rw [BitVec.extractLsb'_append_extractLsb'_eq_extractLsb' (show 192 = 160 + 32 from rfl),
    BitVec.extractLsb'_append_extractLsb'_eq_extractLsb' (show 160 = 80 + 80 from rfl),
    BitVec.extractLsb'_append_extractLsb'_eq_extractLsb' (show 80 = 0 + 80 from rfl)]
  exact slice_whole cw

/-- A command word is determined by its four fields (30_encoding.md R71). -/
theorem commandWord_eq_iff {op : Byte} {v : BitVec 32} {a b : BitVec 80} {cw : CommandWord} :
    commandWord op v a b = cw ↔ opField cw = op ∧ vField cw = v ∧ aField cw = a ∧ bField cw = b := by
  constructor
  · rintro rfl
    simp
  · rintro ⟨rfl, rfl, rfl, rfl⟩
    exact commandWord_fields cw

/-- Settles O4: an encoded word has the fields the encoder writes; conversely a canonical word is made of the fields
its operation reads and zeros. -/
theorem encodingBackHoldsExactlyForCanonicalWords : Obligations.EncodingBackHoldsExactlyForCanonicalWords := by
  intro cw
  constructor
  · rintro ⟨i, -, hi⟩
    cases i <;> obtain ⟨hop, hv, ha, hb⟩ := commandWord_eq_iff.mp hi
    case enc => exact .inl ⟨.inl hop, ha, hb⟩
    case encr => exact .inl ⟨.inr hop, ha, hb⟩
    case addl => exact .inr (.inl ⟨.inl hop, hv⟩)
    case addn => exact .inr (.inl ⟨.inr hop, hv⟩)
    case norm => exact .inr (.inr ⟨.inl hop, hv, hb⟩)
    case rend => exact .inr (.inr ⟨.inr hop, hv, hb⟩)
  · have ha := (pack_unpack (aField cw)).symm
    have hb := (pack_unpack (bField cw)).symm
    rintro (⟨hop | hop, ha0, hb0⟩ | ⟨hop | hop, hv0⟩ | ⟨hop | hop, hv0, hb0⟩)
    · exact ⟨_, decode_enc hop, commandWord_eq_iff.mpr ⟨hop, rfl, ha0, hb0⟩⟩
    · exact ⟨_, decode_encr hop, commandWord_eq_iff.mpr ⟨hop, rfl, ha0, hb0⟩⟩
    · exact ⟨_, decode_addl hop, commandWord_eq_iff.mpr ⟨hop, hv0, ha, hb⟩⟩
    · exact ⟨_, decode_addn hop, commandWord_eq_iff.mpr ⟨hop, hv0, ha, hb⟩⟩
    · exact ⟨_, decode_norm hop, commandWord_eq_iff.mpr ⟨hop, hv0, ha, hb0⟩⟩
    · exact ⟨_, decode_rend hop, commandWord_eq_iff.mpr ⟨hop, hv0, ha, hb0⟩⟩

/-- An opcode in its place is a command word with no other bit set (30_encoding.md R71, R72). -/
theorem shifted_opcode : ∀ op : Byte, op.setWidth 200 <<< 192 = commandWord op 0#32 0#80 0#80 := by decide

/-- The masked comparison of an opcode-table row selects by the `op` field: the mask keeps it and clears the others
(30_encoding.md R72). -/
theorem masked_eq_iff (cw : CommandWord) (op : Byte) :
    cw &&& (0xFF#200 <<< 192) = op.setWidth 200 <<< 192 ↔ opField cw = op := by
  have hmask : (0xFF#200 : CommandWord) <<< 192 = commandWord (BitVec.allOnes 8) 0#32 0#80 0#80 :=
    shifted_opcode (BitVec.allOnes 8)
  have hop (x y : CommandWord) : opField (x &&& y) = opField x &&& opField y := BitVec.extractLsb'_and
  have hv (x y : CommandWord) : vField (x &&& y) = vField x &&& vField y := BitVec.extractLsb'_and
  have ha (x y : CommandWord) : aField (x &&& y) = aField x &&& aField y := BitVec.extractLsb'_and
  have hb (x y : CommandWord) : bField (x &&& y) = bField x &&& bField y := BitVec.extractLsb'_and
  rw [hmask, shifted_opcode, eq_comm, commandWord_eq_iff]
  simp only [hop, hv, ha, hb, opField_commandWord, vField_commandWord, aField_commandWord, bField_commandWord,
    BitVec.and_allOnes, BitVec.and_zero, and_true]

/-- Settles O2: a row selects the words with its opcode, and those decode to its operation. -/
theorem opcodeRowsSelectByMaskAndReadTheirFields : Obligations.OpcodeRowsSelectByMaskAndReadTheirFields := by
  intro cw
  exact ⟨masked_eq_iff cw, fun h => decode_enc ((masked_eq_iff cw _).mp h),
    fun h => decode_addl ((masked_eq_iff cw _).mp h), fun h => decode_addn ((masked_eq_iff cw _).mp h),
    fun h => decode_norm ((masked_eq_iff cw _).mp h), fun h => decode_rend ((masked_eq_iff cw _).mp h),
    fun h => decode_encr ((masked_eq_iff cw _).mp h)⟩

/-- Presenting a command word and stepping is running it. -/
theorem step_presentNext (cw : CommandWord) (s : State) : step (presentNext cw s) = runCommand cw s :=
  step_command (presentNext_hostEvents s cw)

/-- Settles O5: the decoder looks at the opcode and the fields its operation reads, and a step at the decoder's verdict
only. -/
theorem ignoredFieldsHaveNoEffect : Obligations.IgnoredFieldsHaveNoEffect := by
  refine ⟨fun cw cw' s hop hv ha hb => ?_, isCanonical_encode⟩
  have hdecode : decode cw = decode cw' := by
    rcases opcode_cases (opField cw) with h | h | h | h | h | h | h
    · rw [decode_enc h, decode_enc (hop ▸ h), hv (by simp [h])]
    · rw [decode_addl h, decode_addl (hop ▸ h), ha (by simp [h]), hb (by simp [h])]
    · rw [decode_addn h, decode_addn (hop ▸ h), ha (by simp [h]), hb (by simp [h])]
    · rw [decode_norm h, decode_norm (hop ▸ h), ha (by simp [h])]
    · rw [decode_rend h, decode_rend (hop ▸ h), ha (by simp [h])]
    · rw [decode_encr h, decode_encr (hop ▸ h), hv (by simp [h])]
    · rw [decode_reserved h, decode_reserved (hop ▸ h), hop]
  rw [step_presentNext, step_presentNext, runCommand, runCommand, hdecode]

/-- A word whose opcode is not reserved decodes to a command (30_encoding.md R72). -/
theorem decode_of_not_reservedOp {cw : CommandWord} (h : ¬ reservedOp (opField cw)) : ∃ i, decode cw = .command i := by
  rcases opcode_cases (opField cw) with hop | hop | hop | hop | hop | hop | hop
  · exact ⟨_, decode_enc hop⟩
  · exact ⟨_, decode_addl hop⟩
  · exact ⟨_, decode_addn hop⟩
  · exact ⟨_, decode_norm hop⟩
  · exact ⟨_, decode_rend hop⟩
  · exact ⟨_, decode_encr hop⟩
  · exact absurd hop h

/-- Settles O6: a reserved verdict is refused, and every command completes. -/
theorem exactlyReservedOpcodesAreRefused : Obligations.ExactlyReservedOpcodesAreRefused := by
  intro cw s
  rw [step_presentNext]
  refine ⟨fun h => ⟨decode_reserved h, runCommand_of_reserved (decode_reserved h) s⟩, fun h => ?_⟩
  obtain ⟨i, hi⟩ := decode_of_not_reservedOp h
  obtain ⟨t, ht⟩ := exec_completes i s
  refine ⟨⟨i, hi⟩, fun r => ?_⟩
  rw [runCommand_of_command hi, ht]
  simp

end Sys2Proof.Proofs
end


section
/-! SUPPORT. What the renderer emits for a happy accumulator: its significant digits, as characters, with their number
(43_render.md R163 to R167). -/

namespace Sys2Proof.Proofs

open Sys2Proof.Machine Sys2Proof.Safety Sys2Proof.Laws

theorem mem_slotList {a : Accum} {x : Byte} : x ∈ slotList a ↔ ∃ i, slotOf a i = x :=
  List.mem_ofFn (f := slotOf a)

theorem eq_zero10_iff {a : Accum} : a = zero10 ↔ ∀ x ∈ slotList a, x = 0#8 := by
  constructor
  · rintro rfl x hx
    obtain ⟨i, rfl⟩ := mem_slotList.mp hx
    exact slotOf_zero10 i
  · intro h
    exact accum_ext fun i => (h _ (mem_slotList.mpr ⟨i, rfl⟩)).trans (slotOf_zero10 i).symm

/-- The slots that REND emits: from the first non-zero one on, or a single zero (43_render.md R163, R164). -/
def emittedSlots (a : Accum) : List Byte :=
  if a = zero10 then [0#8] else (slotList a).dropWhile (· == 0#8)

@[simp] theorem emittedSlots_zero10 : emittedSlots zero10 = [0#8] := rfl

theorem emittedSlots_of_ne {a : Accum} (h : a ≠ zero10) : emittedSlots a = (slotList a).dropWhile (· == 0#8) :=
  if_neg h

theorem emittedSlots_of_ne_eq_drop {a : Accum} (h : a ≠ zero10) :
    emittedSlots a = (slotList a).drop (leadingZeros a) := by
  have hdrop := List.drop_left (l₁ := (slotList a).takeWhile (· == 0#8)) (l₂ := (slotList a).dropWhile (· == 0#8))
  rw [List.takeWhile_append_dropWhile] at hdrop
  rw [emittedSlots_of_ne h, leadingZeros, hdrop]

theorem emittedSlots_ne_nil (a : Accum) : emittedSlots a ≠ [] := by
  by_cases h : a = zero10
  · simp [h]
  · simpa [emittedSlots_of_ne h, List.dropWhile_eq_nil_iff, eq_zero10_iff] using h

/-- The first emitted slot of a non-zero accumulator is not zero (43_render.md R164). -/
theorem head_emittedSlots_ne_zero {a : Accum} (h : a ≠ zero10) :
    (emittedSlots a).head (emittedSlots_ne_nil a) ≠ 0#8 := by
  have hne := emittedSlots_ne_nil a
  simp only [emittedSlots_of_ne h] at hne ⊢
  simpa using List.head_dropWhile_not (· == 0#8) hne

theorem emittedSlots_le_nine {a : Accum} (h : happy a) : ∀ x ∈ emittedSlots a, x.toNat ≤ 9 := by
  intro x hx
  by_cases ha : a = zero10
  · rw [ha, emittedSlots_zero10, List.mem_singleton] at hx
    simp [hx]
  · rw [emittedSlots_of_ne ha] at hx
    obtain ⟨i, rfl⟩ := mem_slotList.mp ((List.dropWhile_sublist _).subset hx)
    exact h i

/-- `len` is the number of emitted slots (43_render.md R167). -/
theorem toNat_renderLength (a : Accum) : (renderLength a).toNat = (emittedSlots a).length := by
  by_cases h : a = zero10
  · subst h
    rfl
  · have hlength : (slotList a).length = 10 := rfl
    rw [emittedSlots_of_ne_eq_drop h, renderLength, if_neg h, List.length_drop, hlength, BitVec.toNat_ofNat]
    exact Nat.mod_eq_of_lt ((Nat.sub_le _ _).trans_lt (by decide))

theorem renderLength_bounds (a : Accum) : 1 ≤ (renderLength a).toNat ∧ (renderLength a).toNat ≤ 10 := by
  rw [toNat_renderLength]
  refine ⟨List.length_pos_iff.mpr (emittedSlots_ne_nil a), ?_⟩
  by_cases h : a = zero10
  · simp [h]
  · exact emittedSlots_of_ne h ▸ (List.dropWhile_sublist _).length_le

/-- The characters are the emitted slots, each with the code of `'0'` added (43_render.md R165). -/
theorem digitChars_eq_map (a : Accum) : digitChars a = (emittedSlots a).map (· + Config.asciiZero) := by
  by_cases h : a = zero10
  · subst h
    rfl
  · rw [emittedSlots_of_ne_eq_drop h, digitChars, if_neg h]

theorem length_digitChars (a : Accum) : (digitChars a).length = (renderLength a).toNat := by
  rw [digitChars_eq_map, List.length_map, toNat_renderLength]

theorem isDigitChar_of_le_nine : ∀ x : Byte, x.toNat ≤ 9 → isDigitChar (x + Config.asciiZero) = true := by decide

theorem isDigitChar_of_mem_digitChars {a : Accum} (h : happy a) : ∀ c ∈ digitChars a, isDigitChar c = true := by
  rw [digitChars_eq_map, List.forall_mem_map]
  exact fun x hx => isDigitChar_of_le_nine x (emittedSlots_le_nine h x hx)

/-- A packed text reads as its characters with fill bytes behind them (20_memory.md R56, 43_render.md R166). -/
theorem textBytes_packText {chars : List Byte} (h : chars.length ≤ 11) :
    textBytes (packText chars) = chars ++ List.replicate (11 - chars.length) Config.nul := by
  apply List.ext_getElem
  · simp [textBytes, h]
  · intro j hj hj'
    simp only [textBytes, List.getElem_map, List.getElem_finRange, charAt_packText, List.getD_eq_getElem?_getD,
      List.getElem_append, List.getElem_replicate, Fin.val_cast]
    split <;> simp_all

theorem textBytes_digitChars (a : Accum) :
    textBytes (packText (digitChars a)) =
      digitChars a ++ List.replicate (11 - (digitChars a).length) Config.nul := by
  have hlength := (renderLength_bounds a).2
  rw [← length_digitChars] at hlength
  exact textBytes_packText (by omega)

/-- The response word of a rendered text, with any accumulator field. -/
def renderedWord (acc : BitVec 80) (a : Accum) : ResponseWord :=
  responseWord acc (packText (digitChars a)) (renderLength a)

@[simp] theorem accField_renderedWord (acc : BitVec 80) (a : Accum) : accField (renderedWord acc a) = acc :=
  accField_responseWord ..

@[simp] theorem txtField_renderedWord (acc : BitVec 80) (a : Accum) :
    txtField (renderedWord acc a) = packText (digitChars a) :=
  txtField_responseWord ..

@[simp] theorem lenField_renderedWord (acc : BitVec 80) (a : Accum) : lenField (renderedWord acc a) = renderLength a :=
  lenField_responseWord ..

/-- Reading a rendered text by its length gives its characters (60_exceptions.md R191). -/
theorem readByLength_renderedWord (acc : BitVec 80) (a : Accum) : readByLength (renderedWord acc a) = digitChars a := by
  rw [readByLength, txtField_renderedWord, lenField_renderedWord, textBytes_digitChars, ← length_digitChars,
    List.take_left]

/-- A rendered text does not begin with the character zero, unless it is `"0"` (43_render.md R163, R164). -/
theorem first_char_renderedWord (a : Accum) :
    renderLength a = 1#8 ∨ charAt (packText (digitChars a)) 0 ≠ Config.asciiZero := by
  by_cases h : a = zero10
  · exact .inl (h ▸ rfl)
  · right
    have hhead := head_emittedSlots_ne_zero h
    rw [charAt_packText, digitChars_eq_map]
    cases hslots : emittedSlots a with
    | nil => exact absurd hslots (emittedSlots_ne_nil a)
    | cons x xs => simpa [hslots] using hhead

/-- A happy accumulator is rendered into a well-formed text (43_render.md R163 to R167). -/
theorem renderedText_renderedWord (acc : BitVec 80) {a : Accum} (h : happy a) :
    renderedText (renderedWord acc a) = true := by
  have hfill : ((textBytes (packText (digitChars a))).drop (renderLength a).toNat).all (· == Config.nul) = true := by
    rw [textBytes_digitChars, ← length_digitChars, List.drop_left]
    simp
  obtain ⟨hpos, hmax⟩ := renderLength_bounds a
  simpa [renderedText, readByLength_renderedWord, hpos, hmax, hfill] using
    ⟨isDigitChar_of_mem_digitChars h, first_char_renderedWord a⟩

end Sys2Proof.Proofs
end

section
/-! SUPPORT. The response words of the six commands, and that every step keeps the invariant (30_encoding.md R76,
R77). -/

namespace Sys2Proof.Proofs

open Sys2Proof.Machine Sys2Proof.Safety Sys2Proof.Laws

/-- An accumulator reply has no text, whether or not its accumulator is specified (30_encoding.md R77). -/
@[simp] theorem txtField_settle_accReply (c : Option Accum) (n : Nat) : txtField (settle (accReply c) n) = 0#88 :=
  txtField_responseWord ..

@[simp] theorem lenField_settle_accReply (c : Option Accum) (n : Nat) : lenField (settle (accReply c) n) = 0#8 :=
  lenField_responseWord ..

/-- A text reply has a zero accumulator, whether or not its text is specified (30_encoding.md R77). -/
@[simp] theorem accField_settle_textReply (t : Option Text) (n : Nat) : accField (settle (textReply t) n) = 0#80 :=
  accField_responseWord ..

theorem render_of_happy {a : Accum} (h : happy a) : render a = some ⟨packText (digitChars a), renderLength a⟩ :=
  if_pos h

theorem settle_replyRend_of_happy {a : Accum} (h : happy a) (n : Nat) :
    settle (replyRend a) n = renderedWord 0#80 a := by
  rw [replyRend, render_of_happy h]
  rfl

theorem settle_replyEncr {v : BitVec 32} {c : Accum} (henc : encodeDecimal v = some c) (h : happy c) (n : Nat) :
    settle (replyEncr v) n = renderedWord c.pack c := by
  simp only [replyEncr, henc, render_of_happy h]
  rfl

theorem responseWellFormed_settle_accReply (c : Option Accum) (n : Nat) :
    responseWellFormed (settle (accReply c) n) = true := by
  simp [responseWellFormed]

theorem responseWellFormed_renderedWord (acc : BitVec 80) {a : Accum} (h : happy a) :
    responseWellFormed (renderedWord acc a) = true := by
  rw [responseWellFormed, renderedText_renderedWord acc h, Bool.or_true]

/-- Inside the contract every response is well formed (30_encoding.md R76, R77). -/
theorem responseWellFormed_of_inContract {i : Instr} (h : inContract i = true) (n : Nat) :
    responseWellFormed (settle (replyOf i) n) = true := by
  cases i with
  | enc | addl | addn | norm => exact responseWellFormed_settle_accReply _ n
  | rend a =>
    have ha : happy a := of_decide_eq_true h
    rw [replyOf, settle_replyRend_of_happy ha]
    exact responseWellFormed_renderedWord _ ha
  | encr v =>
    obtain ⟨c, henc, hc⟩ := exists_encodeDecimal v
    rw [replyOf, settle_replyEncr henc hc]
    exact responseWellFormed_renderedWord _ hc

/-- A command meets no violation exactly where it is inside its contract (60_exceptions.md R182). -/
theorem firstViolation_command_eq_none (i : Instr) : firstViolation (.command i) = none ↔ inContract i = true := by
  cases i with
  | enc v | encr v => exact iff_of_true rfl rfl
  | addl a b => simp [firstViolation, inContract]
  | addn a b =>
    by_cases h : lazyFits a b
    · rw [firstViolation, if_pos h, inContract, decide_eq_true h]
      simp
    · rw [firstViolation, if_neg h, inContract, decide_eq_false h]
      simp
  | norm a | rend a => simp [firstViolation, inContract]

/-- Settles O25: a step leaves later actions as they are, and adds at most the response of a command inside its
contract. -/
theorem stepKeepsTheInvariant : Obligations.StepKeepsTheInvariant := by
  intro s t hinv hstep
  obtain ⟨hevents, hresponses⟩ := id hinv
  match hnext : s.hostEvents with
  | [] =>
    rw [step_idle hnext, Host.Outcome.next.injEq] at hstep
    exact hstep ▸ hinv
  | .reset :: es =>
    rw [hnext, List.all_cons, Bool.and_eq_true] at hevents
    rw [step_reset hnext, Host.Outcome.next.injEq] at hstep
    exact hstep ▸ ⟨hevents.2, rfl⟩
  | .command cw :: es =>
    rw [hnext, List.all_cons, Bool.and_eq_true] at hevents
    obtain ⟨hcw, hes⟩ := hevents
    obtain ⟨i, hi⟩ := decode_of_eventInContract hcw
    have hcontract : inContract i = true := by
      rwa [eventInContract, hi, Option.isNone_iff_eq_none, firstViolation_command_eq_none] at hcw
    rw [step_command hnext, runCommand_of_command hi, exec_eq_respond, respond_eq, Host.Outcome.next.injEq] at hstep
    refine hstep ▸ ⟨hes, ?_⟩
    simp [hresponses, responseWellFormed_of_inContract hcontract]

end Sys2Proof.Proofs
end


section
/-! SUPPORT. Proofs of the statements on the response word: its fields, the worked encodings, and ADDN outside its
contract (30_encoding.md R76, R77, R82; 40_accumulator_add.md R111). -/

namespace Sys2Proof.Proofs

open Sys2Proof.Machine Sys2Proof.Safety Sys2Proof.Laws

/-- A command appends the response word of its reply, and the counter of draws moves outside the contract only
(30_encoding.md R76; 60_exceptions.md R184). -/
theorem exec_eq_next (i : Instr) (s : State) : exec i s = .next { s with
    responses := s.responses ++ [settle (replyOf i) s.draws]
    draws := s.draws + if inContract i then 0 else 1 } := by
  rw [exec_eq_respond, respond_eq, specified_replyOf]
  cases inContract i <;> rfl

/-- Slot `i` of the accumulator in a response word (30_encoding.md R76). -/
theorem slice_responseWord_acc (a : Accum) (txt : BitVec 88) (len : Byte) (i : Fin 10) :
    (responseWord a.pack txt len).extractLsb' (168 - 8 * i.val) 8 = slotOf a i := by
  have hstart : 168 - 8 * i.val - 8 - 88 = 72 - 8 * i.val := by omega
  rw [responseWord, slice_append_high _ _ _ _ (by omega), slice_append_high _ _ _ _ (by omega), hstart, slice_pack]

/-- Character `j` of the text in a response word (30_encoding.md R76). -/
theorem slice_responseWord_txt (acc : BitVec 80) (txt : BitVec 88) (len : Byte) (j : Fin 11) :
    (responseWord acc txt len).extractLsb' (88 - 8 * j.val) 8 = charAt txt j := by
  have hstart : 88 - 8 * j.val - 8 = 80 - 8 * j.val := by omega
  rw [responseWord, slice_append_high _ _ _ _ (by omega), slice_append_low _ _ _ _ (by omega), hstart, charAt]

/-- Settles O9: each slice of the response word lies in one of its three fields, and a command appends one word. -/
theorem everyCommandYieldsOneResponseOfThreeFields : Obligations.EveryCommandYieldsOneResponseOfThreeFields :=
  ⟨fun a txt len => ⟨slice_responseWord_acc a txt len, slice_responseWord_txt a.pack txt len,
      lenField_responseWord a.pack txt len⟩,
    fun i s => ⟨_, _, exec_eq_next i s, rfl⟩⟩

/-- A specified response does not depend on the counter of draws (10_state.md R20). -/
theorem settle_of_specified {r : Reply} (h : r.specified = true) (m n : Nat) : settle r m = settle r n := by
  obtain ⟨acc, text⟩ := r
  match acc, text, h with
  | some x, some t, _ => rfl

/-- Inside the contract a command responds with its settled reply, from every state (10_state.md R20). -/
theorem respondsWith_settle {i : Instr} (h : inContract i = true) (n : Nat) :
    respondsWith i (settle (replyOf i) n) := by
  intro s
  have hspecified : (replyOf i).specified = true := (specified_replyOf i).trans h
  rw [exec_eq_next, if_pos h, Nat.add_zero, settle_of_specified hspecified s.draws n, answered]

theorem respondsWith_rend {a : Accum} (h : happy a) : respondsWith (.rend a) (renderedWord 0#80 a) :=
  settle_replyRend_of_happy h 0 ▸ respondsWith_settle (i := .rend a) (decide_eq_true h) 0

theorem respondsWith_encr {v : BitVec 32} {c : Accum} (henc : encodeDecimal v = some c) (h : happy c) :
    respondsWith (.encr v) (renderedWord c.pack c) :=
  settle_replyEncr henc h 0 ▸ respondsWith_settle (i := .encr v) rfl 0

/-- Settles O21: the fields an operation does not produce are zero by its form of reply, and a rendered length is that
of 1 to 10 emitted slots. -/
theorem fieldsNotProducedAreZero : Obligations.FieldsNotProducedAreZero := by
  refine ⟨fun i s hi => ?_, fun a s => ?_, fun i hi => ?_⟩
  · have hreply : ∃ c, replyOf i = accReply c := by
      rcases hi with ⟨v, rfl⟩ | ⟨a, b, rfl⟩ | ⟨a, b, rfl⟩ | ⟨a, rfl⟩ <;> exact ⟨_, rfl⟩
    obtain ⟨c, hc⟩ := hreply
    exact ⟨_, _, exec_eq_next i s, rfl, by simp [hc]⟩
  · exact ⟨_, _, exec_eq_next (.rend a) s, rfl, accField_settle_textReply _ _⟩
  · have hword : ∃ acc a, respondsWith i (renderedWord acc a) := by
      rcases hi with ⟨v, rfl⟩ | ⟨a, ha, rfl⟩
      · obtain ⟨c, henc, hc⟩ := exists_encodeDecimal v
        exact ⟨_, _, respondsWith_encr henc hc⟩
      · exact ⟨_, _, respondsWith_rend ha⟩
    obtain ⟨acc, a, hrw⟩ := hword
    exact ⟨_, hrw, by simpa using renderLength_bounds a⟩

/-- A row of the worked encodings: the word of a command inside its contract, and its response (30_encoding.md R82). -/
theorem worked_encoding {i : Instr} {cw : CommandWord} {rw : ResponseWord} (hencode : encode i = cw)
    (hcontract : inContract i = true) (hresponse : settle (replyOf i) 0 = rw) :
    decode cw = .command i ∧ encode i = cw ∧ respondsWith i rw :=
  ⟨hencode ▸ decode_encode i, hencode, hresponse ▸ respondsWith_settle hcontract 0⟩

/-- Settles O1: each row's word and response are those of its command, evaluated. -/
theorem workedEncodingsDecodeAndRespond : Obligations.WorkedEncodingsDecodeAndRespond :=
  ⟨worked_encoding (by decide) (by decide) (by decide),
    worked_encoding (by decide) (by decide) (by decide),
    worked_encoding (by decide) (by decide) (by decide),
    worked_encoding (by decide) (by decide) (by decide),
    worked_encoding (by decide) (by decide) (by decide),
    worked_encoding (by decide) (by decide) (by decide)⟩

/-- Slots of at most 230 give stage inputs of at most 255, since no carry is above 25 (41_normalize.md R125). -/
theorem stageInput_le_of_slots_le {a : Accum} (h : ∀ i, (slotOf a i).toNat ≤ 230) (i : Fin 10) :
    stageInput a i ≤ 255 := by
  induction i using Fin.reverseInduction with
  | last => exact (h 9).trans (by decide)
  | cast i ih =>
    have hslot := h i.castSucc
    rw [stageInput_castSucc]
    omega

theorem squeeze_eq_none {a : Accum} : squeeze a = none ↔ ∃ i, 255 < stageInput a i := by
  rw [← Option.not_isSome_iff_eq_none, isSome_squeeze, decide_eq_true_iff]
  simp [squeezeFits]

theorem addNormalizing_of_addLazy {a b w : Accum} (h : addLazy a b = some w) : addNormalizing a b = squeeze w := by
  rw [addNormalizing, h]

/-- ADDN outside its contract draws its accumulator (40_accumulator_add.md R111; log entry 8). -/
theorem exec_addn_of_none {a b : Accum} (h : addNormalizing a b = none) (s : State) :
    exec (.addn a b) s = .next (answeredDrawing s (responseWord (Config.freeAcc s.draws) 0#88 0#8)) := by
  rw [exec_eq_respond, replyOf, replyAddn, h, respond_accReply_none]

/-- Settles O34: the lazy sum overflows, or the squeeze of it does; slot sums up to 230 give stage inputs up to 255. -/
theorem addnPreconditionAndWhatHappensOutsideIt : Obligations.AddnPreconditionAndWhatHappensOutsideIt := by
  refine ⟨fun a b s hover => ?_, fun a b w s hw hover => ?_, fun a b hsums => ?_⟩
  · have hlazy : addLazy a b = none := addLazy_eq_none.mpr (by simpa using hover)
    exact exec_addn_of_none (by rw [addNormalizing, hlazy]) s
  · have hsqueeze : squeeze w = none := squeeze_eq_none.mpr hover
    exact exec_addn_of_none ((addNormalizing_of_addLazy (addLazy_eq_some.mpr hw)).trans hsqueeze) s
  · obtain ⟨w, hw⟩ := exists_accum fun i => (hsums i).trans (by decide : 230 ≤ 255)
    have hfits : squeezeFits w := stageInput_le_of_slots_le fun i => hw i ▸ hsums i
    obtain ⟨c, hc⟩ := Option.isSome_iff_exists.mp ((isSome_squeeze w).trans (decide_eq_true hfits))
    have hsum : addNormalizing a b = some c := (addNormalizing_of_addLazy (addLazy_eq_some.mpr hw)).trans hc
    exact ⟨c, respondsAccum_of_replyOf (congrArg accReply hsum)⟩

end Sys2Proof.Proofs
end


section
/-! SUPPORT. The numbers behind the digits: the squeeze keeps the number, ENC gives the digits of its input, and the
characters of a happy accumulator are the decimal string of its number (41_normalize.md R126, 42_encode.md R146,
43_render.md R169). -/

namespace Sys2Proof.Proofs

open Sys2Proof.Machine Sys2Proof.Safety Sys2Proof.Laws

/-- The squeeze keeps the number (41_normalize.md R126). -/
theorem val_of_squeeze {a c : Accum} (h : squeeze a = some c) : val c = val a := by
  obtain ⟨-, hzero, hright⟩ := squeeze_eq_some.mp h
  replace hright := forall_slot.mp hright
  simp only [slotOf, stageInput, stageInputFromRight, Fin.coe_ofNat_eq_mod, Nat.reduceMod, Nat.reduceSub,
    Fin.ofNat_eq_cast, Nat.cast_ofNat, Fin.natCast_zero, ne_eq, Fin.reduceEq, not_true_eq_false, not_false_eq_true,
    false_imp_iff, forall_const, true_and] at hzero hright
  simp only [val]
  omega

/-- With digits in slots 1 to 9 only slot 0 can make a value unhappy, and then its number has more than ten digits
(41_normalize.md R127). -/
theorem happy_iff_val_lt {c : Accum} (h : ∀ i, i ≠ 0 → (slotOf c i).toNat ≤ 9) : happy c ↔ val c < 10 ^ 10 := by
  replace h := forall_slot.mp h
  simp only [slotOf, ne_eq, Fin.reduceEq, not_true_eq_false, not_false_eq_true, false_imp_iff, forall_const,
    true_and] at h
  rw [happy, forall_slot]
  simp only [slotOf, val]
  omega

/-- Below `10^10` the squeeze gives the decimal expansion of the number (41_normalize.md R127). -/
theorem dec10_of_squeeze {a c : Accum} (h : squeeze a = some c) (hval : val a < 10 ^ 10) : c = dec10 (val a) := by
  have hkeep := val_of_squeeze h
  obtain ⟨-, -, hright⟩ := squeeze_eq_some.mp h
  have hdigit (i : Fin 10) (hi : i ≠ 0) : (slotOf c i).toNat ≤ 9 := by
    rw [hright i hi]
    omega
  rw [← hkeep] at hval ⊢
  exact (dec10_val_of_happy ((happy_iff_val_lt hdigit).mpr hval)).symm

/-- The low `n` bits of a number are the sum of their powers of two. -/
theorem sum_testBit (x n : Nat) : ∑ k : Fin n, (if x.testBit k.val then 2 ^ k.val else 0) = x % 2 ^ n := by
  induction n with
  | zero => simp [Nat.mod_one]
  | succ n ih =>
    rw [Fin.sum_univ_castSucc, Nat.mod_pow_succ]
    simp only [Fin.val_castSucc, Fin.val_last, ih]
    rw [Nat.testBit_eq_decide_div_mod_eq]
    rcases Nat.mod_two_eq_zero_or_one (x / 2 ^ n) with h | h <;> simp [h]

/-- The lazy sum of ENC stands for its input: a set bit adds the ROM entry that stands for its power of two
(42_encode.md R143). -/
theorem val_lazySum {v : BitVec 32} {w : Accum} (h : lazySum v = some w) : val w = v.toNat := by
  have hposition (k : Fin 32) :
      ∑ i, scanDigit v i k * placeValue i = if v.toNat.testBit k.val then 2 ^ k.val else 0 := by
    rw [BitVec.testBit_toNat, ← val_romRead, val_eq_sum]
    unfold scanDigit
    split <;> simp
  calc val w = ∑ i, ∑ k, scanDigit v i k * placeValue i := by
        simp only [val_eq_sum, lazySum_eq_some.mp h, Finset.sum_mul]
    _ = ∑ k, ∑ i, scanDigit v i k * placeValue i := Finset.sum_comm
    _ = v.toNat % 2 ^ 32 := by simp only [hposition, sum_testBit]
    _ = v.toNat := Nat.mod_eq_of_lt v.isLt

/-- The result of ENC stands for its input (42_encode.md R146). -/
theorem val_of_encodeDecimal {v : BitVec 32} {c : Accum} (h : encodeDecimal v = some c) : val c = v.toNat := by
  obtain ⟨w, hw, -⟩ := exists_lazySum v
  have hsqueeze : squeeze w = some c := by simpa [encodeDecimal, hw] using h
  exact (val_of_squeeze hsqueeze).trans (val_lazySum hw)

/-- ENC gives the decimal expansion of its input (42_encode.md R146). -/
theorem encodeDecimal_eq (v : BitVec 32) : encodeDecimal v = some (dec10 v.toNat) := by
  obtain ⟨c, hc, hhappy⟩ := exists_encodeDecimal v
  rw [hc, ← val_of_encodeDecimal hc, dec10_val_of_happy hhappy]

/-- The slots, from the units on, are the number's digits to base ten, where they are digits (00_scope.md R10). -/
theorem val_eq_ofDigits (a : Accum) : val a = Nat.ofDigits 10 ((slotList a).reverse.map BitVec.toNat) := by
  simp only [val, slotList, List.reverse_cons, List.reverse_nil, List.nil_append, List.cons_append, List.map_cons,
    List.map_nil, Nat.ofDigits_cons, Nat.ofDigits_nil]
  omega

/-- The leading zeros do not count (43_render.md R164). -/
theorem val_eq_ofDigits_emittedSlots {a : Accum} (h : a ≠ zero10) :
    val a = Nat.ofDigits 10 ((emittedSlots a).reverse.map BitVec.toNat) := by
  have hzeros : (slotList a).takeWhile (· == 0#8) = List.replicate (leadingZeros a) 0#8 :=
    List.eq_replicate_iff.mpr ⟨rfl, fun x hx => by simpa using List.mem_takeWhile_imp hx⟩
  rw [val_eq_ofDigits, ← List.takeWhile_append_dropWhile (p := (· == 0#8)) (l := slotList a), hzeros,
    ← emittedSlots_of_ne h, List.reverse_append, List.map_append, List.reverse_replicate, List.map_replicate]
  exact Nat.ofDigits_append_replicate_zero _

/-- The emitted slots of a non-zero happy accumulator are the digits of its number (43_render.md R169). -/
theorem digits_val {a : Accum} (h : happy a) (hne : a ≠ zero10) :
    Nat.digits 10 (val a) = (emittedSlots a).reverse.map BitVec.toNat := by
  rw [val_eq_ofDigits_emittedSlots hne]
  refine Nat.digits_ofDigits 10 (by decide) _ ?_ fun _ => ?_
  · intro d hd
    obtain ⟨x, hx, rfl⟩ := List.mem_map.mp hd
    exact Nat.lt_succ_of_le (emittedSlots_le_nine h x (List.mem_reverse.mp hx))
  · rw [List.getLast_map, List.getLast_reverse]
    exact mt (BitVec.toNat_inj (y := 0#8)).mp (head_emittedSlots_ne_zero hne)

/-- The characters of a happy accumulator are the decimal string of its number (43_render.md R169). -/
theorem digitChars_eq_decimalString {a : Accum} (h : happy a) : digitChars a = decimalString (val a) := by
  by_cases ha : a = zero10
  · subst ha
    decide
  · have hval : val a ≠ 0 := by
      intro h0
      rw [← dec10_val_of_happy h, h0] at ha
      exact ha (by decide)
    rw [decimalString, if_neg hval, digits_val h ha, digitChars_eq_map]
    simp

end Sys2Proof.Proofs
end


section
/-! SUPPORT. Proofs of the statements on the host's script lines and pseudo-commands (30_encoding.md R80, R81). -/

namespace Sys2Proof.Proofs

open Sys2Proof.Machine Sys2Proof.Safety Sys2Proof.Laws

theorem runLine_of_expand_eq_none {l : ScriptLine} {names : Names} {s : State}
    (h : expand names l.command = none) : runLine l names s = none := by
  rw [runLine, h]

/-- A line that expands to a command issues it, and keeps its response under the line's name (30_encoding.md R80). -/
theorem runLine_of_exec {l : ScriptLine} {names : Names} {s t : State} {i : Instr} {rw : ResponseWord}
    (hexpand : expand names l.command = some i) (hexec : exec i s = .next t)
    (hresponses : t.responses = s.responses ++ [rw]) :
    runLine l names s = some ((l.name, keep l.command rw) :: names, t) := by
  have hstep : step (presentNext (encode i) s) = .next t := by
    rw [step_presentNext, runCommand_of_command (decode_encode i), hexec]
  simp [runLine, hexpand, hstep, hresponses]

/-- Settles O55: a line runs its command, and the name it adds stands for what the line keeps, before all others. -/
theorem scriptLineNamesItsResponse : Obligations.ScriptLineNamesItsResponse := by
  intro l names s
  refine ⟨runLine_of_expand_eq_none, fun i hexpand => ?_⟩
  have hexec := exec_eq_next i s
  refine ⟨settle (replyOf i) s.draws, if inContract i then 0 else 1, _, hexec, runLine_of_exec hexpand hexec rfl,
    fun h => ⟨if_pos h, respondsWith_settle h s.draws⟩, fun h => ?_, fun h => ?_, textOf_latest .., lengthOf_latest ..,
    fun r hr => ⟨operandValue_other hr .., textOf_other hr .., lengthOf_other hr ..⟩⟩
  · rw [operandValue_latest, keep_acc_of_other h, Option.map_some]
  · rw [operandValue_latest, keep_acc_of_utoa h, Option.map_none]

/-- ENC responds with the decimal expansion of its input (42_encode.md R146). -/
theorem respondsAccum_enc (v : BitVec 32) : respondsAccum (.enc v) (dec10 v.toNat) :=
  respondsAccum_of_replyOf (congrArg accReply (encodeDecimal_eq v))

theorem val_of_addLazy {a b w : Accum} (h : addLazy a b = some w) : val w = val a + val b := by
  simp only [val_eq_sum, addLazy_eq_some.mp h, add_mul, Finset.sum_add_distrib]

/-- ADDN inside its contract gives the decimal expansion of the sum, where that has ten digits
(40_accumulator_add.md R112). -/
theorem respondsAccum_addn {a b : Accum} (h : inContract (.addn a b) = true) (hval : val a + val b < 10 ^ 10) :
    respondsAccum (.addn a b) (dec10 (val a + val b)) := by
  obtain ⟨c, hc⟩ := Option.isSome_iff_exists.mp ((isSome_addNormalizing a b).trans h)
  cases hw : addLazy a b with
  | none => simp [addNormalizing, hw] at hc
  | some w =>
    have hsqueeze : squeeze w = some c := (addNormalizing_of_addLazy hw).symm.trans hc
    have hkeep := val_of_addLazy hw
    rw [← hkeep] at hval ⊢
    rw [← dec10_of_squeeze hsqueeze hval]
    exact respondsAccum_of_replyOf (congrArg accReply hc)

theorem inputValue_toNat (v : BitVec 32) : inputValue v.toNat = some v := by
  have hfits : fitsInput v.toNat = true := decide_eq_true v.isLt
  rw [inputValue, if_pos hfits, BitVec.ofNat_toNat, BitVec.setWidth_eq]

theorem toNat_one_shiftLeft : ∀ k : Fin 32, (1#32 <<< k.val).toNat = 2 ^ k.val := by decide

/-- ENCR inside its contract gives a word that reads as the decimal string of its input, by its length
(42_encode.md R151). -/
theorem exists_respondsWith_encr (v : BitVec 32) :
    ∃ rw, respondsWith (.encr v) rw ∧ readByLength rw = decimalString v.toNat ∧
      (lenField rw).toNat = (decimalString v.toNat).length := by
  obtain ⟨c, henc, hc⟩ := exists_encodeDecimal v
  have hchars : digitChars c = decimalString v.toNat := val_of_encodeDecimal henc ▸ digitChars_eq_decimalString hc
  refine ⟨_, respondsWith_encr henc hc, ?_, ?_⟩
  · rw [readByLength_renderedWord, hchars]
  · rw [lenField_renderedWord, ← length_digitChars, hchars]

/-- Settles O54: the pseudo-commands expand by definition; their results are those of ENC, ADDN and ENCR. -/
theorem pseudoCommandsExpandAsListed : Obligations.PseudoCommandsExpandAsListed := by
  intro names
  refine ⟨⟨rfl, respondsAccum_enc 0#32⟩, fun k => ⟨_, ?_, rfl, ?_⟩, fun o a ho => ⟨?_, fun hcontract hval => ?_⟩,
    fun v => ?_⟩
  · have hk : ScriptCommand.wellFormed (.pow2 k.val) = true := decide_eq_true k.isLt
    rw [expand, if_pos hk]
  · obtain ⟨-, hrom, -⟩ := romEntriesAreThePowersOfTwo k
    rw [hrom, ← toNat_one_shiftLeft]
    exact respondsAccum_enc _
  · rw [expand, ho, Option.map_some]
  · rw [Nat.two_mul] at hval ⊢
    exact respondsAccum_addn hcontract hval
  · have hexpand : expand names (.utoa v.toNat) = some (.encr v) := by rw [expand, inputValue_toNat, Option.map_some]
    obtain ⟨rw, hrw, htext, hlength⟩ := exists_respondsWith_encr v
    refine ⟨hexpand, rw, hrw, htext, fun r s => ⟨_, runLine_of_exec hexpand (hrw s) rfl, ?_, ?_, ?_⟩⟩
    · exact (textOf_latest ..).trans (congrArg some htext)
    · exact (lengthOf_latest ..).trans (congrArg some hlength)
    · rw [operandValue_latest, keep_acc_of_utoa ⟨_, rfl⟩, Option.map_none]

end Sys2Proof.Proofs
end

section
/-! SUPPORT. Proofs of the statements on accumulator addition, lazy and normalizing (40_accumulator_add.md R101, R102,
R103, R110, R112; 70_reset_and_hazards.md R212). -/

namespace Sys2Proof.Proofs

open Sys2Proof.Machine Sys2Proof.Safety Sys2Proof.Laws

theorem pack_injective : Function.Injective Accum.pack :=
  Function.LeftInverse.injective unpack_pack

/-- A command completes with `c` from every state exactly where its reply specifies `c`: an unspecified accumulator
would be drawn, and a draw moves the counter (30_encoding.md R77, R78). -/
theorem respondsAccum_iff {i : Instr} {o : Option Accum} (h : replyOf i = accReply o) {c : Accum} :
    respondsAccum i c ↔ o = some c := by
  constructor
  · intro hresponds
    have hnext := hresponds State.reset
    rw [exec_eq_respond, h] at hnext
    cases o with
    | none =>
      rw [respond_accReply_none, Host.Outcome.next.injEq] at hnext
      have hdraws : (1 : Nat) = 0 := congrArg State.draws hnext
      exact absurd hdraws Nat.one_ne_zero
    | some d =>
      rw [respond_accReply_some, Host.Outcome.next.injEq] at hnext
      have hword : responseWord d.pack 0#88 0#8 = responseWord c.pack 0#88 0#8 := by
        simpa using congrArg State.responses hnext
      have hpack : d.pack = c.pack := by simpa using congrArg accField hword
      exact congrArg some (pack_injective hpack)
  · rintro rfl
    exact respondsAccum_of_replyOf h

/-- ADDL completes with `c` exactly where every slot of `c` is the exact sum (40_accumulator_add.md R101). -/
theorem respondsAccum_addl_iff {a b c : Accum} :
    respondsAccum (.addl a b) c ↔ ∀ i, (slotOf c i).toNat = (slotOf a i).toNat + (slotOf b i).toNat :=
  (respondsAccum_iff rfl).trans addLazy_eq_some

theorem respondsAccum_norm_iff {w c : Accum} : respondsAccum (.norm w) c ↔ squeeze w = some c :=
  respondsAccum_iff rfl

theorem respondsAccum_addn_iff {a b c : Accum} : respondsAccum (.addn a b) c ↔ addNormalizing a b = some c :=
  respondsAccum_iff rfl

/-- Settles O28: slot sums that fit a byte are the slots of an accumulator, and ADDL completes with it. -/
theorem addlGivesTheExactSlotSums : Obligations.AddlGivesTheExactSlotSums := by
  intro a b hfits
  obtain ⟨c, hc⟩ := exists_accum hfits
  exact ⟨c, hc, respondsAccum_addl_iff.mpr hc⟩

/-- Settles O29: a slot sum above 255 leaves the whole lazy sum unspecified. -/
theorem addlOutsideTheContractDrawsItsAccumulator : Obligations.AddlOutsideTheContractDrawsItsAccumulator := by
  intro a b s hover
  have hlazy : addLazy a b = none := addLazy_eq_none.mpr (by simpa using hover)
  rw [exec_eq_respond, replyOf, replyAddl, hlazy, respond_accReply_none]

/-- ADDL adds the numbers (40_accumulator_add.md R103). -/
theorem val_of_respondsAccum_addl {a b c : Accum} (h : respondsAccum (.addl a b) c) : val c = val a + val b :=
  val_of_addLazy ((respondsAccum_iff rfl).mp h)

/-- ADDL commutes (40_accumulator_add.md R103). -/
theorem respondsAccum_addl_comm {a b c : Accum} (h : respondsAccum (.addl a b) c) : respondsAccum (.addl b a) c := by
  rw [respondsAccum_addl_iff] at h ⊢
  intro i
  rw [h, Nat.add_comm]

/-- ADDL associates where the triple slot sums fit a byte: either way the last sum's slots are those triple sums
(40_accumulator_add.md R103). -/
theorem respondsAccum_addl_assoc {a b c : Accum}
    (h : ∀ i, (slotOf a i).toNat + (slotOf b i).toNat + (slotOf c i).toNat ≤ 255) :
    ∃ ab bc r, respondsAccum (.addl a b) ab ∧ respondsAccum (.addl ab c) r ∧
      respondsAccum (.addl b c) bc ∧ respondsAccum (.addl a bc) r := by
  have hleft (i : Fin 10) : (slotOf a i).toNat + (slotOf b i).toNat ≤ 255 := (Nat.le_add_right _ _).trans (h i)
  have hright (i : Fin 10) : (slotOf b i).toNat + (slotOf c i).toNat ≤ 255 := by
    have := h i
    omega
  obtain ⟨ab, hab⟩ := exists_accum hleft
  obtain ⟨bc, hbc⟩ := exists_accum hright
  obtain ⟨r, hr⟩ := exists_accum h
  simp only [respondsAccum_addl_iff]
  exact ⟨ab, bc, r, hab, fun i => by rw [hr, hab], hbc, fun i => by rw [hr, hbc, Nat.add_assoc]⟩

/-- `ZERO10` is neutral for ADDL (40_accumulator_add.md R103). -/
theorem respondsAccum_addl_zero10 (a : Accum) : respondsAccum (.addl a zero10) a :=
  respondsAccum_addl_iff.mpr fun i => by simp

/-- Settles O30: the four laws are those of the slot sums. -/
theorem addlLaws : Obligations.AddlLaws := by
  refine ⟨fun a b hfits => ?_, fun a b c => respondsAccum_addl_assoc, respondsAccum_addl_zero10⟩
  obtain ⟨c, -, hc⟩ := addlGivesTheExactSlotSums a b hfits
  exact ⟨c, hc, respondsAccum_addl_comm hc, val_of_respondsAccum_addl hc⟩

/-- Happy addends may be added to `start` one after another as long as nine more per addend still fit every slot
(70_reset_and_hazards.md R212). -/
theorem exists_addlChain_of_happy {xs : List Accum} (hxs : ∀ x ∈ xs, happy x) {start : Accum}
    (hroom : ∀ i, (slotOf start i).toNat + 9 * xs.length ≤ 255) :
    ∃ r, addlChain start xs r ∧ val r = val start + (xs.map val).sum := by
  induction xs generalizing start with
  | nil => exact ⟨start, rfl, by simp⟩
  | cons x xs ih =>
    obtain ⟨hx, hrest⟩ := List.forall_mem_cons.mp hxs
    simp only [List.length_cons] at hroom
    have hfits (i : Fin 10) : (slotOf start i).toNat + (slotOf x i).toNat ≤ 255 := by
      have := hroom i
      have := hx i
      omega
    obtain ⟨m, hslots, hm⟩ := addlGivesTheExactSlotSums start x hfits
    have hroom' (i : Fin 10) : (slotOf m i).toNat + 9 * xs.length ≤ 255 := by
      have := hroom i
      have := hx i
      rw [hslots]
      omega
    obtain ⟨r, hchain, hval⟩ := ih hrest hroom'
    refine ⟨r, ⟨m, hm, hchain⟩, ?_⟩
    rw [hval, val_of_respondsAccum_addl hm, List.map_cons, List.sum_cons, Nat.add_assoc]

/-- Settles O31: 28 addends of at most 9 per slot stay below 255, starting from zero. -/
theorem twentyEightHappyAddendsSumLazily : Obligations.TwentyEightHappyAddendsSumLazily := by
  intro xs hlength hxs
  have hroom (i : Fin 10) : (slotOf zero10 i).toNat + 9 * xs.length ≤ 255 := by
    rw [slotOf_zero10, BitVec.toNat_zero]
    omega
  obtain ⟨r, hchain, hval⟩ := exists_addlChain_of_happy hxs hroom
  have hzero : val zero10 = 0 := rfl
  exact ⟨r, hchain, by rw [hval, hzero, Nat.zero_add]⟩

/-- Settles O32: the normalizing sum is the squeeze of the lazy sum, where there is one. -/
theorem addnIsNormAfterAddl : Obligations.AddnIsNormAfterAddl := by
  intro a b c
  have hlazy (w : Accum) : respondsAccum (.addl a b) w ↔ addLazy a b = some w := respondsAccum_iff rfl
  have hbind : addNormalizing a b = (addLazy a b).bind squeeze := by
    rw [addNormalizing]
    cases addLazy a b <;> rfl
  simp only [respondsAccum_addn_iff, respondsAccum_norm_iff, hlazy, hbind, Option.bind_eq_some_iff]

theorem happy_dec10 (n : Nat) : happy (dec10 n) := by
  intro i
  rw [dec10, slotOf_ofSlots, BitVec.toNat_ofNat]
  omega

/-- The squeeze leaves a digit in every slot but slot 0 (41_normalize.md R126). -/
theorem slot_le_nine_of_squeeze {a c : Accum} (h : squeeze a = some c) : ∀ i, i ≠ 0 → (slotOf c i).toNat ≤ 9 := by
  intro i hi
  obtain ⟨-, -, hright⟩ := squeeze_eq_some.mp h
  rw [hright i hi]
  omega

/-- A squeeze is happy exactly where its operand's number has at most ten digits (41_normalize.md R127). -/
theorem happy_squeeze_iff {a c : Accum} (h : squeeze a = some c) : happy c ↔ val a < 10 ^ 10 :=
  val_of_squeeze h ▸ happy_iff_val_lt (slot_le_nine_of_squeeze h)

/-- A squeeze is the decimal expansion of its operand's number exactly where that has at most ten digits
(41_normalize.md R127). -/
theorem eq_dec10_of_squeeze_iff {a c : Accum} (h : squeeze a = some c) : c = dec10 (val a) ↔ val a < 10 ^ 10 :=
  ⟨fun hdec => (happy_squeeze_iff h).mp (hdec ▸ happy_dec10 (val a)), dec10_of_squeeze h⟩

/-- Inside its contract ADDN gives the normalized sum, happy and the decimal expansion exactly below `10^10`
(40_accumulator_add.md R112). -/
theorem exists_respondsAccum_addn {a b w : Accum}
    (hw : ∀ i, (slotOf w i).toNat = (slotOf a i).toNat + (slotOf b i).toNat) (hfits : ∀ i, stageInput w i ≤ 255) :
    ∃ c, respondsAccum (.addn a b) c ∧ val c = val a + val b ∧ (∀ i, i ≠ 0 → (slotOf c i).toNat ≤ 9) ∧
      (happy c ↔ val a + val b < 10 ^ 10) ∧ (c = dec10 (val a + val b) ↔ val a + val b < 10 ^ 10) := by
  have hlazy : addLazy a b = some w := addLazy_eq_some.mpr hw
  obtain ⟨c, hc⟩ := Option.isSome_iff_exists.mp ((isSome_squeeze w).trans (decide_eq_true hfits))
  rw [← val_of_addLazy hlazy]
  exact ⟨c, respondsAccum_addn_iff.mpr ((addNormalizing_of_addLazy hlazy).trans hc), val_of_squeeze hc,
    slot_le_nine_of_squeeze hc, happy_squeeze_iff hc, eq_dec10_of_squeeze_iff hc⟩

/-- Two happy operands have an exact slot-wise sum, and it meets the precondition of the squeeze: no slot is above 18
(40_accumulator_add.md R112). -/
theorem exists_slot_sum_of_happy {a b : Accum} (ha : happy a) (hb : happy b) :
    ∃ w, (∀ i, (slotOf w i).toNat = (slotOf a i).toNat + (slotOf b i).toNat) ∧ ∀ i, stageInput w i ≤ 255 := by
  have hsums (i : Fin 10) : (slotOf a i).toNat + (slotOf b i).toNat ≤ 18 := Nat.add_le_add (ha i) (hb i)
  obtain ⟨w, hw⟩ := exists_accum fun i => (hsums i).trans (by decide : 18 ≤ 255)
  refine ⟨w, hw, stageInput_le_of_slots_le fun i => ?_⟩
  rw [hw]
  exact (hsums i).trans (by decide)

/-- Settles O33: ADDN is the squeeze of the slot-wise sum, and two 32-bit numbers add up to less than `10^10`. -/
theorem addnGivesTheNormalizedSum : Obligations.AddnGivesTheNormalizedSum := by
  refine ⟨fun a b w => exists_respondsAccum_addn, fun a b ha hb hva hvb => ?_⟩
  have hval : val a + val b < 10 ^ 10 := (Nat.add_lt_add hva hvb).trans (by decide)
  obtain ⟨w, hw, hfits⟩ := exists_slot_sum_of_happy ha hb
  obtain ⟨c, hc, -, -, hhappy, hdec⟩ := exists_respondsAccum_addn hw hfits
  exact ⟨c, hc, hhappy.mpr hval, hdec.mpr hval⟩

end Sys2Proof.Proofs
end

section
/-! SUPPORT. Proofs of the statements on NORM: its contract, its result, its pipeline view, and lazy sums of happy
addends before it (41_normalize.md R123 to R129, R131; 70_reset_and_hazards.md R213). -/

namespace Sys2Proof.Proofs

open Sys2Proof.Machine Sys2Proof.Safety Sys2Proof.Laws

/-- The squeeze answers where every stage input fits a byte (41_normalize.md R123). -/
theorem exists_squeeze {a : Accum} (h : ∀ i, stageInput a i ≤ 255) : ∃ c, squeeze a = some c :=
  Option.isSome_iff_exists.mp ((isSome_squeeze a).trans (decide_eq_true h))

theorem exists_respondsAccum_norm_iff {a : Accum} :
    (∃ c, respondsAccum (.norm a) c) ↔ ∀ i, stageInput a i ≤ 255 := by
  simp only [respondsAccum_norm_iff]
  exact ⟨fun ⟨_, hc⟩ => (squeeze_eq_some.mp hc).1, exists_squeeze⟩

/-- Settles O35: NORM completes inside its contract exactly where the squeeze answers. -/
theorem normPreconditionIsTheStageInputs : Obligations.NormPreconditionIsTheStageInputs :=
  fun a => ⟨rfl, stageInput_castSucc a, exists_respondsAccum_norm_iff⟩

/-- Settles O36: a stage input above 255 leaves the whole squeeze unspecified. -/
theorem normOutsideTheContractDrawsItsAccumulator : Obligations.NormOutsideTheContractDrawsItsAccumulator := by
  intro a s hover
  have hsqueeze : squeeze a = none := squeeze_eq_none.mpr hover
  rw [exec_eq_respond, replyOf, replyNorm, hsqueeze, respond_accReply_none]

/-- Settles O37: the slots are those of the squeeze, which keeps the number. -/
theorem normClosedForm : Obligations.NormClosedForm := by
  intro a hfits
  obtain ⟨c, hc⟩ := exists_squeeze hfits
  obtain ⟨-, hzero, hright⟩ := squeeze_eq_some.mp hc
  exact ⟨c, respondsAccum_norm_iff.mpr hc, hright, hzero, val_of_squeeze hc⟩

/-- With digits in slots 1 to 9, slot 0 is what lies above them (41_normalize.md R127). -/
theorem slotZero_eq_val_div {c : Accum} (h : ∀ i, i ≠ 0 → (slotOf c i).toNat ≤ 9) :
    (slotOf c 0).toNat = val c / 10 ^ 9 := by
  replace h := forall_slot.mp h
  simp only [slotOf, ne_eq, Fin.reduceEq, not_true_eq_false, not_false_eq_true, false_imp_iff, forall_const,
    true_and] at h
  simp only [slotOf, val]
  omega

/-- Slot 0 of a squeeze is `floor(val(a) / 10^9)` (41_normalize.md R127). -/
theorem slotZero_of_squeeze {a c : Accum} (h : squeeze a = some c) : (slotOf c 0).toNat = val a / 10 ^ 9 :=
  val_of_squeeze h ▸ slotZero_eq_val_div (slot_le_nine_of_squeeze h)

/-- Settles O38: the squeeze keeps the number, so that its digits and slot 0 are those of `val a`. -/
theorem normResultIsHappyExactlyBelowTenToTheTenth : Obligations.NormResultIsHappyExactlyBelowTenToTheTenth := by
  intro a hfits
  obtain ⟨c, hc⟩ := exists_squeeze hfits
  exact ⟨c, respondsAccum_norm_iff.mpr hc, slot_le_nine_of_squeeze hc, slotZero_of_squeeze hc, happy_squeeze_iff hc,
    dec10_of_squeeze hc⟩

/-- Settles O39: slot 0 holds the undivided `t_0 = floor(val(a) / 10^9)`; for a lazy sum of ENC it is at most that of
the largest one. -/
theorem normLeavesSlotZeroUndivided : Obligations.NormLeavesSlotZeroUndivided := by
  refine ⟨fun a hfits hval => ?_, respondsAccum_norm_iff.mpr (by decide), fun v => ?_⟩
  · obtain ⟨c, hc⟩ := exists_squeeze hfits
    obtain ⟨-, hzero, -⟩ := squeeze_eq_some.mp hc
    have hten : 10 ≤ stageInput a 0 := by
      rw [← hzero, slotZero_of_squeeze hc]
      omega
    have hunhappy : ¬ happy c := (happy_squeeze_iff hc).not.mpr hval.not_gt
    exact ⟨hten, c, respondsAccum_norm_iff.mpr hc, hzero, hunhappy, slot_le_nine_of_squeeze hc, val_of_squeeze hc⟩
  · obtain ⟨w, hw, hcolumns⟩ := exists_lazySum v
    exact ⟨w, hw, (stageInput_mono hcolumns 0).trans (stageInput_romColumns 0).le⟩

/-- Digits in slots 1 to 9 carry nothing (41_normalize.md R129). -/
theorem stageInput_of_digits {a : Accum} (h : ∀ i, i ≠ 0 → (slotOf a i).toNat ≤ 9) (i : Fin 10) :
    stageInput a i = (slotOf a i).toNat := by
  induction i using Fin.reverseInduction with
  | last => rfl
  | cast i ih =>
    have hdigit := h i.succ (Fin.succ_ne_zero i)
    rw [stageInput_castSucc, ih]
    omega

/-- The squeeze leaves digits in slots 1 to 9, and any slot 0, as they are (41_normalize.md R129). -/
theorem squeeze_of_digits {a : Accum} (h : ∀ i, i ≠ 0 → (slotOf a i).toNat ≤ 9) : squeeze a = some a := by
  refine squeeze_eq_some.mpr ⟨fun i => ?_, (stageInput_of_digits h 0).symm, fun i hi => ?_⟩
  · rw [stageInput_of_digits h]
    exact slot_le a i
  · rw [stageInput_of_digits h, Nat.mod_eq_of_lt (Nat.lt_succ_of_le (h i hi))]

/-- Settles O40: slots 1 to 9 are digits in a happy value and in every result of the squeeze. -/
theorem normIsIdentityOnHappyAndIdempotent : Obligations.NormIsIdentityOnHappyAndIdempotent := by
  simp only [Obligations.NormIsIdentityOnHappyAndIdempotent, respondsAccum_norm_iff]
  exact ⟨fun a ha => squeeze_of_digits fun i _ => ha i, fun a c hc => squeeze_of_digits (slot_le_nine_of_squeeze hc)⟩

/-- Settles O41: no carry is above 25. -/
theorem slotsUpTo230MeetTheNormPrecondition : Obligations.SlotsUpTo230MeetTheNormPrecondition := by
  intro a hslots
  have hfits := stageInput_le_of_slots_le hslots
  exact ⟨hfits, exists_respondsAccum_norm_iff.mpr hfits⟩

/-- A chain of ADDL commands leaves the exact sums in every slot (70_reset_and_hazards.md R212). -/
theorem slotOf_of_addlChain {start r : Accum} {xs : List Accum} (h : addlChain start xs r) (i : Fin 10) :
    (slotOf r i).toNat = (slotOf start i).toNat + (xs.map fun x => (slotOf x i).toNat).sum := by
  induction xs generalizing start with
  | nil =>
    obtain rfl : r = start := h
    rfl
  | cons x xs ih =>
    obtain ⟨m, hm, hrest⟩ := h
    rw [ih hrest, respondsAccum_addl_iff.mp hm, List.map_cons, List.sum_cons, Nat.add_assoc]

/-- Up to 28 happy addends may be added to `ZERO10` (70_reset_and_hazards.md R212). -/
theorem exists_addlChain_zero10 {xs : List Accum} (hlength : xs.length ≤ 28) (hxs : ∀ x ∈ xs, happy x) :
    ∃ r, addlChain zero10 xs r ∧ val r = (xs.map val).sum ∧
      ∀ i, (slotOf r i).toNat = (xs.map fun x => (slotOf x i).toNat).sum := by
  obtain ⟨r, hchain, hval⟩ := twentyEightHappyAddendsSumLazily xs hlength hxs
  exact ⟨r, hchain, hval, fun i => by simpa using slotOf_of_addlChain hchain i⟩

/-- Settles O43: 25 addends of at most 9 per slot leave at most 225 in a slot, which the squeeze bears; 26 all-nines
leave 234 in each, and then `t_8 = 234 + 23`. -/
theorem squeezeIsSafeAfterTwentyFiveHappyAddends : Obligations.SqueezeIsSafeAfterTwentyFiveHappyAddends := by
  refine ⟨fun xs hlength hxs => ?_, ?_⟩
  · obtain ⟨r, hchain, hval, hslots⟩ := exists_addlChain_zero10 (hlength.trans (by decide)) hxs
    have hbound (i : Fin 10) : (slotOf r i).toNat ≤ 230 := by
      have hsum : (slotOf r i).toNat ≤ xs.length * 9 := by
        rw [hslots, ← List.length_map (as := xs) fun x => (slotOf x i).toNat]
        refine List.sum_le_card_nsmul _ 9 fun d hd => ?_
        obtain ⟨x, hx, rfl⟩ := List.mem_map.mp hd
        exact hxs x hx i
      omega
    obtain ⟨n, hn⟩ := exists_squeeze (stageInput_le_of_slots_le hbound)
    exact ⟨r, n, hchain, respondsAccum_norm_iff.mpr hn, (val_of_squeeze hn).trans hval⟩
  · have hnines : happy ⟨9, 9, 9, 9, 9, 9, 9, 9, 9, 9⟩ := by decide
    obtain ⟨r, hchain, -, hslots⟩ := exists_addlChain_zero10 (xs := .replicate 26 ⟨9, 9, 9, 9, 9, 9, 9, 9, 9, 9⟩)
      (by decide) fun x hx => List.eq_of_mem_replicate hx ▸ hnines
    have hover : ¬ stageInput r 8 ≤ 255 := by
      have h8 : (slotOf r 8).toNat = 234 := hslots 8
      have h9 : (slotOf r 9).toNat = 234 := hslots 9
      have hcarry : stageInput r 8 = (slotOf r 8).toNat + (slotOf r 9).toNat / 10 := rfl
      omega
    exact ⟨r, hchain, fun hn => hover (exists_respondsAccum_norm_iff.mp hn 8)⟩

theorem slotAdd_zero (x : Byte) : slotAdd x 0#8 = some x := slotAdd_eq_some.mpr rfl

/-- A stage of the squeeze is one slot addition, and what is written after it (41_normalize.md R120). -/
theorem squeezeStage_eq_map (w : Accum) (i : Fin 10) :
    squeezeStage w i = (slotAdd (slotOf w (i - 1)) (qLook (slotOf w i))).map fun left =>
      setSlot (setSlot w (i - 1) left) i (rLook (slotOf w i)) := by
  unfold squeezeStage
  cases slotAdd (slotOf w (i - 1)) (qLook (slotOf w i)) <;> rfl

theorem pipelineChain_nil (carry : Byte) (digits : List Byte) :
    pipelineChain [] carry digits = some (digits, carry) := rfl

/-- A stage of the pipeline is one slot addition, and what is handed on after it (41_normalize.md R131). -/
theorem pipelineChain_cons (slot carry : Byte) (rest digits : List Byte) :
    pipelineChain (slot :: rest) carry digits =
      (slotAdd slot carry).bind fun t => pipelineChain rest (qLook t) (rLook t :: digits) := by
  rw [pipelineChain, pipelineStage]
  cases slotAdd slot carry <;> rfl

/-- The nine slot additions of the squeeze, each at the quotient of the sum before it, and the ten slots they leave
(41_normalize.md R131). -/
def carryChain (a : Accum) : Option (List Byte) := do
  let t8 ← slotAdd a.s8 (qLook a.s9)
  let t7 ← slotAdd a.s7 (qLook t8)
  let t6 ← slotAdd a.s6 (qLook t7)
  let t5 ← slotAdd a.s5 (qLook t6)
  let t4 ← slotAdd a.s4 (qLook t5)
  let t3 ← slotAdd a.s3 (qLook t4)
  let t2 ← slotAdd a.s2 (qLook t3)
  let t1 ← slotAdd a.s1 (qLook t2)
  let t0 ← slotAdd a.s0 (qLook t1)
  return [t0, rLook t1, rLook t2, rLook t3, rLook t4, rLook t5, rLook t6, rLook t7, rLook t8, rLook a.s9]

theorem map_slotList_squeeze (a : Accum) : (squeeze a).map slotList = carryChain a := by
  simp [squeeze, stageOrder, squeezeFrom_cons, squeezeStage_eq_map, slotOf, setSlot, slotList, carryChain,
    Option.bind_map, Option.map_bind, Function.comp_def]

theorem squeezePipeline_eq_bind (a : Accum) :
    squeezePipeline a = (pipelineChain (slotList a).tail.reverse 0#8 []).bind
      fun out => (slotAdd a.s0 out.2).map (· :: out.1) := by
  rw [squeezePipeline]
  cases pipelineChain (slotList a).tail.reverse 0#8 [] with
  | none => rfl
  | some out => cases h : slotAdd a.s0 out.2 <;> simp [h]

/-- In the pipeline slot 9 takes the carry 0 first (41_normalize.md R131). -/
theorem squeezePipeline_eq_carryChain (a : Accum) : squeezePipeline a = carryChain a := by
  have hright : (slotList a).tail.reverse = [a.s9, a.s8, a.s7, a.s6, a.s5, a.s4, a.s3, a.s2, a.s1] := rfl
  simp only [squeezePipeline_eq_bind, hright, pipelineChain_cons, pipelineChain_nil, slotAdd_zero, Option.bind_some,
    Option.bind_assoc, Option.map_eq_bind]
  rfl

/-- Settles O42: the pipeline and the squeeze make the same nine slot additions, in the same order. -/
theorem pipelineOfStagesEqualsTheSqueeze : Obligations.PipelineOfStagesEqualsTheSqueeze :=
  fun a => (squeezePipeline_eq_carryChain a).trans (map_slotList_squeeze a).symm

end Sys2Proof.Proofs
end

section
/-! SUPPORT. Proof of the statement on the reads of the constant memories (20_memory.md R54, R63; 41_normalize.md R120,
R130; 42_encode.md R140). -/

namespace Sys2Proof.Proofs

open Sys2Proof.Machine Sys2Proof.Safety Sys2Proof.Laws

/-- What stage `i` of NORM reads: both tables at `t_i`, or at its free address from the first stage input on that does
not fit a byte (41_normalize.md R120; log entry 13). -/
def stageReads (n : Nat) (a : Accum) (i : Fin 10) : List MemAccess :=
  if ∀ j, i ≤ j → stageInput a j ≤ 255
  then [.qtab (BitVec.ofNat 8 (stageInput a i)), .rtab (BitVec.ofNat 8 (stageInput a i))]
  else [.qtab (Config.freeAddress n i), .rtab (Config.freeAddress n i)]

/-- A stage at which every stage input so far fits finds its own in the working accumulator. -/
theorem stageReads_of_squeezedTo {a w : Accum} {m : Fin 10} (h : SqueezedTo a m w)
    (hfits : ∀ j, m ≤ j → stageInput a j ≤ 255) (n : Nat) :
    stageReads n a m = [.qtab (slotOf w m), .rtab (slotOf w m)] := by
  have haddress : BitVec.ofNat 8 (stageInput a m) = slotOf w m := by
    rw [← workingSlot_same, ← h m, BitVec.ofNat_toNat, BitVec.setWidth_eq]
  rw [stageReads, if_pos hfits, haddress]

/-- From a stage input above 255 on, the remaining stages read at free addresses. -/
theorem squeezeReads_none_of_overflow {a : Accum} {m : Fin 10} (hover : 255 < stageInput a m) (n : Nat)
    {is : List (Fin 10)} (his : ∀ i ∈ is, i ≤ m) : squeezeReads n is none = is.flatMap (stageReads n a) := by
  rw [squeezeReads_none]
  refine List.flatMap_congr fun i hi => ?_
  have hfree : ¬ ∀ j, i ≤ j → stageInput a j ≤ 255 := fun h => (h m (his i hi)).not_gt hover
  rw [stageReads, if_neg hfree]

theorem le_of_mem_drop_stageOrder : ∀ m : Fin 10, ∀ i ∈ stageOrder.drop (9 - m.val), i ≤ m := by decide

/-- The reads of the stages from `m` down to 1, where the stages before them completed. -/
theorem squeezeReads_of_squeezedTo {a : Accum} (n : Nat) (m : Fin 10) {w : Accum} (h : SqueezedTo a m w)
    (hfits : ∀ j, m ≤ j → stageInput a j ≤ 255) :
    squeezeReads n (stageOrder.drop (9 - m.val)) (some w) =
      (stageOrder.drop (9 - m.val)).flatMap (stageReads n a) := by
  induction m using Fin.induction generalizing w with
  | zero => rfl
  | succ m ih =>
    have hrest : squeezeReads n (stageOrder.drop (9 - m.castSucc.val)) (squeezeStage w m.succ) =
        (stageOrder.drop (9 - m.castSucc.val)).flatMap (stageReads n a) := by
      cases hstage : squeezeStage w m.succ with
      | some w' =>
        have hw' := (squeezeStage_of_squeezedTo h).mp hstage
        refine ih hw' fun j hj => ?_
        rcases hj.eq_or_lt with rfl | hj
        · exact exists_squeezedTo_iff.mp ⟨w', hw'⟩
        · exact hfits j (Fin.castSucc_lt_iff_succ_le.mp hj)
      | none =>
        have hover : ¬ stageInput a m.castSucc ≤ 255 := by
          intro hle
          obtain ⟨w', hw'⟩ := exists_squeezedTo_iff.mpr hle
          simp [(squeezeStage_of_squeezedTo h).mpr hw'] at hstage
        exact squeezeReads_none_of_overflow (Nat.lt_of_not_le hover) n (le_of_mem_drop_stageOrder m.castSucc)
    rw [drop_stageOrder_succ, squeezeReads_cons, stageAddress_some, Option.bind_some, hrest, List.flatMap_cons,
      stageReads_of_squeezedTo h hfits]
    rfl

/-- NORM reads both tables at its stage inputs, slot 9's first (41_normalize.md R120). -/
theorem readsOf_norm (n : Nat) (a : Accum) : readsOf n (.norm a) = stageOrder.flatMap (stageReads n a) := by
  refine squeezeReads_of_squeezedTo n 9 (.start a) fun j hj => ?_
  obtain rfl : j = 9 := Fin.last_le_iff.mp hj
  exact slot_le a 9

theorem readsOf_addn (n : Nat) (a b : Accum) :
    readsOf n (.addn a b) = squeezeReads n stageOrder (addLazy a b) := rfl

theorem scanOrder_eq_reverse : scanOrder = (List.finRange 32).reverse := by decide

/-- ENC reads the ROM in the scan and then as NORM on the lazy sum (42_encode.md R140). -/
theorem readsOf_enc {v : BitVec 32} {w : Accum} (h : lazySum v = some w) (n : Nat) :
    readsOf n (.enc v) = scanReads v ++ readsOf n (.norm w) := by
  rw [readsOf, h, readsOf]

/-- The scan reads one ROM entry per set bit, and no table (20_memory.md R54). -/
theorem countP_scanReads (v : BitVec 32) :
    (scanReads v).countP isRomRead = (Finset.univ.filter fun k : Fin 32 => v.getLsbD k.val = true).card ∧
    (scanReads v).countP isQtabRead = 0 ∧ (scanReads v).countP isRtabRead = 0 := by
  have hrom : isRomRead ∘ .rom = fun _ : Fin 32 => true := rfl
  have hqtab : isQtabRead ∘ .rom = fun _ : Fin 32 => false := rfl
  have hrtab : isRtabRead ∘ .rom = fun _ : Fin 32 => false := rfl
  have hnodup : scanOrder.Nodup := scanOrder_perm.nodup_iff.mpr (List.nodup_finRange 32)
  have hset : (scanOrder.filter fun k => v.getLsbD k.val).toFinset =
      Finset.univ.filter fun k : Fin 32 => v.getLsbD k.val = true := by
    ext k
    simp [scanOrder_perm.mem_iff]
  rw [← hset, List.toFinset_card_of_nodup (hnodup.filter _)]
  simp only [scanReads, List.countP_map, hrom, hqtab, hrtab, List.countP_true, List.countP_false, Function.const_apply,
    and_self]

/-- NORM and ADDN read each table nine times and no ROM entry (20_memory.md R54). -/
theorem countP_readsOf_squeeze {i : Instr} (hi : (∃ a b, i = .addn a b) ∨ ∃ a, i = .norm a) (n : Nat) :
    (readsOf n i).countP isRomRead = 0 ∧ (readsOf n i).countP isQtabRead = 9 ∧
      (readsOf n i).countP isRtabRead = 9 := by
  rcases hi with ⟨a, b, rfl⟩ | ⟨a, rfl⟩ <;> exact countP_squeezeReads n stageOrder _

/-- ENC and ENCR read one ROM entry per set bit, and each table nine times (20_memory.md R54). -/
theorem countP_readsOf_encode {i : Instr} {v : BitVec 32} (hi : i = .enc v ∨ i = .encr v) (n : Nat) :
    (readsOf n i).countP isRomRead = (Finset.univ.filter fun k : Fin 32 => v.getLsbD k.val = true).card ∧
      (readsOf n i).countP isQtabRead = 9 ∧ (readsOf n i).countP isRtabRead = 9 := by
  have hreads : readsOf n i = scanReads v ++ squeezeReads n stageOrder (lazySum v) := by
    rcases hi with rfl | rfl <;> rfl
  obtain ⟨hrom, hqtab, hrtab⟩ := countP_scanReads v
  obtain ⟨hrom', hqtab', hrtab'⟩ := countP_squeezeReads n stageOrder (lazySum v)
  rw [hreads, List.countP_append, List.countP_append, List.countP_append, hrom, hqtab, hrtab, hrom', hqtab', hrtab']
  exact ⟨rfl, rfl, rfl⟩

/-- Settles O12: the stages read what the working accumulator holds, which is their stage inputs up to the first
overflow. -/
theorem commandsReadTheMemoriesAsOften : Obligations.CommandsReadTheMemoriesAsOften := by
  refine ⟨fun _ _ _ => rfl, fun _ _ => rfl, readsOf_norm, fun n a b w hw => ?_, fun n a b hover => ?_, fun n v => ?_,
    fun n i => ⟨fun hi => countP_readsOf_squeeze hi n, fun v hi => countP_readsOf_encode hi n⟩⟩
  · rw [readsOf_addn, addLazy_eq_some.mpr hw, readsOf]
  · have hlazy : addLazy a b = none := addLazy_eq_none.mpr (by simpa using hover)
    rw [readsOf_addn, hlazy]
    exact squeezeReads_none n stageOrder
  · obtain ⟨w, hw, -⟩ := exists_lazySum v
    exact ⟨w, hw, scanOrder_eq_reverse ▸ readsOf_enc hw n, rfl⟩

end Sys2Proof.Proofs
end

section
/-! SUPPORT. Proofs of the statements on ENC and ENCR: the digits, the order of the scan, the powers of two, and the
decimal string (42_encode.md R143, R146, R148, R150, R151). -/

namespace Sys2Proof.Proofs

open Sys2Proof.Machine Sys2Proof.Safety Sys2Proof.Laws

/-- Slot `i` of `dec10(n)` is digit `9 - i` of `n` (00_scope.md R10). -/
theorem toNat_slotOf_dec10 (n : Nat) (i : Fin 10) : (slotOf (dec10 n) i).toNat = n / placeValue i % 10 := by
  rw [dec10, slotOf_ofSlots, BitVec.toNat_ofNat]
  omega

/-- The decimal expansion of an input stands for it (42_encode.md R146). -/
theorem val_dec10_toNat (v : BitVec 32) : val (dec10 v.toNat) = v.toNat :=
  val_of_encodeDecimal (encodeDecimal_eq v)

/-- Settles O44: the digits are those of `dec10`, and no 32-bit number reaches `5 * 10^9`. -/
theorem encGivesTheDecimalDigits : Obligations.EncGivesTheDecimalDigits := by
  intro v
  have hzero : (slotOf (dec10 v.toNat) 0).toNat ≤ 4 := by
    have hplace : placeValue 0 = 10 ^ 9 := rfl
    have hv := v.isLt
    rw [toNat_slotOf_dec10, hplace]
    omega
  exact ⟨_, respondsAccum_enc v, rfl, toNat_slotOf_dec10 _, happy_dec10 _, val_dec10_toNat v, hzero⟩

/-- A scan depends on which positions it visits, and not on their order (42_encode.md R143). -/
theorem scanFrom_perm {v : BitVec 32} {ks ks' : List (Fin 32)} (h : ks.Perm ks') (w : Accum) :
    scanFrom v ks w = scanFrom v ks' w := by
  ext w'
  simp only [scanFrom_eq_some, (h.map _).sum_eq]

theorem romColumns_le : ∀ i, (slotOf romColumns i).toNat ≤ 155 := by decide

/-- Settles O46: permuted positions add the same digits to each slot, and no scan exceeds the column sums, of which 155
is the largest. -/
theorem scanOrderIsNotObservable : Obligations.ScanOrderIsNotObservable := by
  refine fun v => ⟨?_, fun ks hks => ?_⟩
  · obtain ⟨w, hw, -⟩ := exists_lazySum v
    exact ⟨w, fun ks hks => (scanFrom_perm hks zero10).trans hw, lazySum_eq_some.mp hw⟩
  · obtain ⟨w, hw, hcolumns⟩ := exists_scanFrom_zero10 v hks
    exact ⟨w, hw, fun i => (hcolumns i).trans (romColumns_le i)⟩

/-- ENCR responds with the decimal expansion of its input, rendered (42_encode.md R150). -/
theorem respondsWith_encr_dec10 (v : BitVec 32) :
    respondsWith (.encr v) (renderedWord (dec10 v.toNat).pack (dec10 v.toNat)) :=
  respondsWith_encr (encodeDecimal_eq v) (happy_dec10 _)

/-- Settles O48: ENCR and REND render the same accumulator, the one that ENC gives. -/
theorem encrIsRendAfterEnc : Obligations.EncrIsRendAfterEnc := fun v =>
  ⟨_, _, _, respondsAccum_enc v, happy_dec10 _, respondsWith_rend (happy_dec10 _), respondsWith_encr_dec10 v⟩

/-- The codes of slot values parse to the number that these are the digits of, most significant first
(43_render.md R165, R169). -/
theorem parseDecimal_map_add_asciiZero (xs : List Byte) :
    parseDecimal (xs.map (· + Config.asciiZero)) = Nat.ofDigits 10 (xs.reverse.map BitVec.toNat) := by
  simp only [parseDecimal, List.foldl_map, BitVec.add_sub_cancel]
  induction xs using List.reverseRecOn with
  | nil => rfl
  | append_singleton xs x ih =>
    rw [List.foldl_concat, ih, List.reverse_concat, List.map_cons, Nat.ofDigits_cons, Nat.add_comm]

/-- The characters of an accumulator parse back to its number (43_render.md R169). -/
theorem parseDecimal_digitChars (a : Accum) : parseDecimal (digitChars a) = val a := by
  by_cases h : a = zero10
  · subst h
    decide
  · rw [digitChars_eq_map, parseDecimal_map_add_asciiZero, val_eq_ofDigits_emittedSlots h]

/-- Behind its characters a rendered text holds fill bytes only (43_render.md R166). -/
theorem charAt_digitChars_of_le {a : Accum} {j : Fin 11} (h : (renderLength a).toNat ≤ j.val) :
    charAt (packText (digitChars a)) j = Config.nul := by
  rw [← length_digitChars] at h
  rw [charAt_packText, List.getD_eq_default _ _ h]

/-- Settles O49: the characters of `dec10(v)` are the decimal string of the number it stands for. -/
theorem encrGivesTheDecimalString : Obligations.EncrGivesTheDecimalString := by
  intro v
  have hchars : digitChars (dec10 v.toNat) = decimalString v.toNat := by
    rw [digitChars_eq_decimalString (happy_dec10 _), val_dec10_toNat]
  obtain ⟨hpos, hmax⟩ := renderLength_bounds (dec10 v.toNat)
  refine ⟨_, respondsWith_encr_dec10 v, accField_renderedWord .., ?_, ?_, ?_⟩
  · rw [readByLength_renderedWord, hchars]
  · rw [lenField_renderedWord, ← length_digitChars, hchars]
  · rw [lenField_renderedWord, txtField_renderedWord, readByLength_renderedWord, parseDecimal_digitChars]
    exact ⟨hpos, hmax, fun _ => charAt_digitChars_of_le, val_dec10_toNat v⟩

theorem toNat_ofNat_two_pow (k : Fin 32) : (BitVec.ofNat 32 (2 ^ k.val)).toNat = 2 ^ k.val := by
  rw [BitVec.toNat_ofNat, Nat.mod_eq_of_lt (Nat.pow_lt_pow_right (by decide) k.isLt)]

/-- Settles O47: a ROM entry is the decimal expansion of its power of two, and happy. -/
theorem encOfPowersOfTwoGivesTheRomEntries : Obligations.EncOfPowersOfTwoGivesTheRomEntries := by
  refine fun k => ⟨?_, respondsAccum_norm_iff.mpr (squeeze_of_digits fun i _ => happy_romRead k i)⟩
  have hrom : romRead k = dec10 (BitVec.ofNat 32 (2 ^ k.val)).toNat := by
    obtain ⟨-, hdec, -⟩ := romEntriesAreThePowersOfTwo k
    rw [hdec, toNat_ofNat_two_pow]
  rw [hrom]
  exact respondsAccum_enc _

end Sys2Proof.Proofs
end

section
/-! SUPPORT. Proofs of the statements on REND: the emitted slots, the decimal string, and REND outside its contract
(43_render.md R162 to R167, R169). -/

namespace Sys2Proof.Proofs

open Sys2Proof.Machine Sys2Proof.Safety Sys2Proof.Laws

theorem lt_length_slotList (a : Accum) (i : Fin 10) : i.val < (slotList a).length := i.isLt

theorem getElem_slotList (a : Accum) {i : Nat} (hi : i < (slotList a).length) : (slotList a)[i] = slotOf a ⟨i, hi⟩ :=
  List.getElem_ofFn (f := slotOf a) hi

/-- The slots in front of the first non-zero one are the leading zeros (43_render.md R164). -/
theorem leadingZeros_eq {a : Accum} {z : Fin 10} (hzeros : ∀ i < z, slotOf a i = 0#8) (hz : slotOf a z ≠ 0#8) :
    leadingZeros a = z.val := by
  have hfirst : (slotList a).findIdx (fun x => !(x == 0#8)) = z.val := by
    refine (List.findIdx_eq (lt_length_slotList a z)).mpr ⟨?_, fun i hi => ?_⟩
    · simpa [getElem_slotList] using hz
    · rw [getElem_slotList, hzeros _ hi]
      rfl
  rw [leadingZeros, List.takeWhile_eq_take_findIdx_not, hfirst, List.length_take]
  exact Nat.min_eq_left z.isLt.le

theorem emittedSlots_eq_drop {a : Accum} {z : Fin 10} (hzeros : ∀ i < z, slotOf a i = 0#8) (hz : slotOf a z ≠ 0#8) :
    emittedSlots a = (slotList a).drop z.val := by
  have hne : a ≠ zero10 := by
    rintro rfl
    exact hz (slotOf_zero10 z)
  rw [emittedSlots_of_ne_eq_drop hne, leadingZeros_eq hzeros hz]

/-- The character of an emitted slot is its value with the code of `'0'` added (43_render.md R165). -/
theorem charAt_digitChars {a : Accum} {j : Fin 11} {x : Byte} (hx : (emittedSlots a)[j.val]? = some x) :
    charAt (packText (digitChars a)) j = x + Config.asciiZero := by
  rw [charAt_packText, digitChars_eq_map, List.getD_eq_getElem?_getD, List.getElem?_map, hx]
  rfl

theorem toNat_add_asciiZero_of_le_nine {x : Byte} (h : x.toNat ≤ 9) :
    (x + Config.asciiZero).toNat = x.toNat + 0x30 := by
  rw [BitVec.toNat_add, BitVec.toNat_ofNat]
  omega

/-- Settles O50: the emitted slots are those from the first non-zero one on, and a digit's code fits a byte. -/
theorem rendEmitsTheDigitsFromTheFirstNonZeroSlot : Obligations.RendEmitsTheDigitsFromTheFirstNonZeroSlot := by
  refine ⟨respondsWith_rend (by decide), fun a z ha hzeros hz => ?_⟩
  have hslots := emittedSlots_eq_drop hzeros hz
  have hlen : (renderLength a).toNat = 10 - z.val := by
    rw [toNat_renderLength, hslots, List.length_drop]
    rfl
  refine ⟨_, _, respondsWith_rend ha, hlen, fun i j hzi hj => ?_, fun j hj => charAt_digitChars_of_le (hlen ▸ hj)⟩
  have hemitted : (emittedSlots a)[j.val]? = some (slotOf a i) := by
    have hindex : z.val + j.val = i.val := by omega
    rw [hslots, List.getElem?_drop, hindex, List.getElem?_eq_getElem (lt_length_slotList a i),
      getElem_slotList]
  rw [charAt_digitChars hemitted, toNat_add_asciiZero_of_le_nine (ha i)]

/-- Settles O51: the characters are the decimal string of the number, and as many as `len` says. -/
theorem rendGivesTheCanonicalDecimalString : Obligations.RendGivesTheCanonicalDecimalString := by
  intro a ha
  have hchars : digitChars a = decimalString (val a) := digitChars_eq_decimalString ha
  refine ⟨_, respondsWith_rend ha, accField_renderedWord .., ?_, ?_, ?_⟩
  · rw [readByLength_renderedWord, hchars]
  · rw [lenField_renderedWord, ← length_digitChars, hchars]
  · rw [readByLength_renderedWord, parseDecimal_digitChars]

theorem render_eq_none {a : Accum} : render a = none ↔ ∃ i, 9 < (slotOf a i).toNat := by
  rw [← Option.not_isSome_iff_eq_none, isSome_render, decide_eq_true_iff]
  simp [happy]

/-- Settles O52: a slot above 9 leaves the whole text unspecified, and the accumulator of a text reply is zero. -/
theorem rendOutsideTheContractDrawsItsText : Obligations.RendOutsideTheContractDrawsItsText := by
  intro a s hunhappy
  have hrender : render a = none := render_eq_none.mpr hunhappy
  rw [exec_eq_respond, replyOf, replyRend, hrender, respond_textReply_none]

end Sys2Proof.Proofs
end

section
/-! SUPPORT. Proofs of the statements on the contract and its violations, the order of commands and the reading of a
text (60_exceptions.md R180, R182, R183, R185, R190, R191). -/

namespace Sys2Proof.Proofs

open Sys2Proof.Machine Sys2Proof.Safety Sys2Proof.Laws

/-- A presented word with a reserved opcode is refused (30_encoding.md R75). -/
theorem step_reserved {s : State} {cw : CommandWord} {es : List HostEvent} (hevents : s.hostEvents = .command cw :: es)
    (hop : reservedOp (opField cw)) : step s = .refused (.reservedOpcode (opField cw)) := by
  rw [step_command hevents, runCommand_of_reserved (decode_reserved hop)]

/-- Where no reserved opcode is presented a step answers a next state (60_exceptions.md R180). -/
theorem exists_step_next {s : State}
    (h : ∀ cw es, s.hostEvents = .command cw :: es → ¬ reservedOp (opField cw)) : ∃ t, step s = .next t := by
  match hevents : s.hostEvents with
  | [] => exact ⟨s, step_idle hevents⟩
  | .reset :: es => exact ⟨_, step_reset hevents⟩
  | .command cw :: es =>
    obtain ⟨i, hi⟩ := decode_of_not_reservedOp (h cw es hevents)
    rw [step_command hevents, runCommand_of_command hi]
    exact exec_completes i _

/-- Settles O14: there is no fault to answer, a reserved opcode is refused, and all else completes. -/
theorem stepFaultsNeverAndStopsOnlyOnReservedOpcodes : Obligations.StepFaultsNeverAndStopsOnlyOnReservedOpcodes := by
  intro s
  refine ⟨nofun, fun hstop => ?_, ?_⟩
  · by_contra hreserved
    exact hstop (exists_step_next fun cw es hevents hop => hreserved ⟨cw, es, hevents, hop⟩)
  · rintro ⟨cw, es, hevents, hop⟩ ⟨t, ht⟩
    rw [step_reserved hevents hop] at ht
    exact nomatch ht

/-- A presented command that responds with `rw` from every state appends it and is taken off (60_exceptions.md R190). -/
theorem step_of_respondsWith {i : Instr} {rw : ResponseWord} (hi : respondsWith i rw) {s : State} {es : List HostEvent}
    (hevents : s.hostEvents = .command (encode i) :: es) :
    step s = .next { s with hostEvents := es, responses := s.responses ++ [rw] } := by
  rw [step_command hevents, runCommand_of_command (decode_encode i), hi, answered]

/-- Commands presented in a row append their responses in that order (60_exceptions.md R190). -/
theorem runSteps_of_respondsWith {is : List Instr} {rws : List ResponseWord}
    (h : List.Forall₂ respondsWith is rws) {s : State} {rest : List HostEvent}
    (hevents : s.hostEvents = (is.map fun i => HostEvent.command (encode i)) ++ rest) :
    runSteps is.length s = .next { s with hostEvents := rest, responses := s.responses ++ rws } := by
  induction h generalizing s with
  | nil =>
    rw [List.append_nil]
    exact congrArg (fun es => Host.Outcome.next { s with hostEvents := es }) hevents
  | cons hi _ ih =>
    rw [List.length_cons, runSteps_succ_of_next _ (step_of_respondsWith hi hevents), ih rfl]
    simp

/-- Settles O17: each command inside its contract has one response, and appends it from wherever the one before left
the block. -/
theorem commandsCompleteInTheOrderPresented : Obligations.CommandsCompleteInTheOrderPresented := by
  intro is his
  have hresponses : List.Forall₂ respondsWith is (is.map fun i => settle (replyOf i) 0) :=
    List.forall₂_map_right_iff.mpr (List.forall₂_same.mpr fun i hi => respondsWith_settle (his i hi) 0)
  exact ⟨_, hresponses, fun s rest => runSteps_of_respondsWith hresponses⟩

/-- Settles O20: the violating command completes, and the one after it responds as it does from every state. -/
theorem violationLeavesNoTraceInLaterResponses : Obligations.ViolationLeavesNoTraceInLaterResponses := by
  intro i j _ hj
  obtain ⟨rw, hrw⟩ := responseDependsOnTheCommandAlone j hj
  refine ⟨rw, fun s => ⟨hrw s, ?_⟩⟩
  obtain ⟨t, ht⟩ := exec_completes i s
  exact ⟨t, ht, hrw t⟩

theorem not_lazyFits_iff {a b : Accum} : ¬ lazyFits a b ↔ ∃ i, 255 < (slotOf a i).toNat + (slotOf b i).toNat := by
  simp [lazyFits]

theorem not_squeezeFits_iff {a : Accum} : ¬ squeezeFits a ↔ ∃ i, 255 < stageInput a i := by
  simp [squeezeFits]

theorem not_happy_iff {a : Accum} : ¬ happy a ↔ ∃ i, 9 < (slotOf a i).toNat := by
  simp [happy]

/-- Recording a violation `x` exactly where a precondition fails. -/
theorem ite_none_some_eq_some {p : Prop} [Decidable p] (x : Violation) :
    (if p then none else some x) = some x ↔ ¬ p := by
  by_cases hp : p <;> simp [hp]

/-- No command meets CV4 (60_exceptions.md R182). -/
theorem firstViolation_command_ne_reservedOpcode (i : Instr) :
    firstViolation (.command i) ≠ some .reservedOpcode := by
  cases i with
  | enc | encr => exact nofun
  | addl | norm | rend =>
    rw [firstViolation]
    split <;> simp
  | addn a b =>
    rw [firstViolation]
    split
    · split <;> simp
    · simp

/-- CV4 is met exactly at the reserved opcodes (60_exceptions.md R182). -/
theorem firstViolation_eq_reservedOpcode_iff (cw : CommandWord) :
    firstViolation (decode cw) = some .reservedOpcode ↔ reservedOp (opField cw) := by
  by_cases hop : reservedOp (opField cw)
  · rw [decode_reserved hop]
    exact iff_of_true rfl hop
  · obtain ⟨i, hi⟩ := decode_of_not_reservedOp hop
    rw [hi]
    exact iff_of_false (firstViolation_command_ne_reservedOpcode i) hop

/-- A word meets no violation exactly where it is a command with a specified reply (60_exceptions.md R182). -/
theorem firstViolation_eq_none_iff (cw : CommandWord) :
    firstViolation (decode cw) = none ↔ ∃ i, decode cw = .command i ∧ (replyOf i).specified = true := by
  cases decode cw with
  | command i => simp [firstViolation_command_eq_none, specified_replyOf]
  | reserved op => simp [firstViolation]

/-- ADDN meets CV1 exactly where a slot sum overflows, whatever the squeeze of it would do (60_exceptions.md R185). -/
theorem firstViolation_addn_eq_lazySumOverflow_iff (a b : Accum) :
    firstViolation (.command (.addn a b)) = some .lazySumOverflow ↔ ¬ lazyFits a b := by
  rw [firstViolation]
  split
  next h => split <;> simp [h]
  next h => exact iff_of_true rfl h

/-- Where the lazy sum of ADDN is `w`, ADDN meets CV2 exactly where the squeeze of `w` overflows (60_exceptions.md
R182). -/
theorem firstViolation_addn_eq_squeezeOverflow_iff {a b w : Accum} (h : addLazy a b = some w) :
    firstViolation (.command (.addn a b)) = some .squeezeOverflow ↔ ¬ squeezeFits w := by
  have hfits : lazyFits a b := by
    by_contra hover
    exact nomatch h.symm.trans (addLazy_eq_none.mpr hover)
  have hw : slotSums a b = w := Option.some.inj ((addLazy_of_fits hfits).symm.trans h)
  rw [firstViolation, if_pos hfits, hw, ite_none_some_eq_some]

/-- Settles O22: each violation is recorded where its precondition fails, and a reply is specified where none does. -/
theorem violationsAreExactlyTheUnspecifiedReplies : Obligations.ViolationsAreExactlyTheUnspecifiedReplies :=
  ⟨fun cw => ⟨firstViolation_eq_reservedOpcode_iff cw, firstViolation_eq_none_iff cw⟩,
    fun _ _ => (ite_none_some_eq_some _).trans not_lazyFits_iff,
    fun a b => (firstViolation_addn_eq_lazySumOverflow_iff a b).trans not_lazyFits_iff,
    fun _ _ _ hw => (firstViolation_addn_eq_squeezeOverflow_iff (addLazy_eq_some.mpr hw)).trans not_squeezeFits_iff,
    fun _ => (ite_none_some_eq_some _).trans not_squeezeFits_iff,
    fun _ => (ite_none_some_eq_some _).trans not_happy_iff,
    firstViolation_command_eq_none,
    exec_eq_respond⟩

theorem ne_nul_of_isDigitChar {c : Byte} (h : isDigitChar c = true) : c ≠ Config.nul := by
  rintro rfl
  exact absurd h (by decide)

/-- Reading the rendered text of a happy accumulator to its terminator gives its characters: none of them is the
terminator, and only fill bytes follow (60_exceptions.md R191). -/
theorem readToTerminator_renderedWord (acc : BitVec 80) {a : Accum} (h : happy a) :
    readToTerminator (renderedWord acc a) = digitChars a := by
  have hchars : ∀ c ∈ digitChars a, (c != Config.nul) = true := fun c hc =>
    bne_iff_ne.mpr (ne_nul_of_isDigitChar (isDigitChar_of_mem_digitChars h c hc))
  rw [readToTerminator, txtField_renderedWord, textBytes_digitChars, List.takeWhile_append_of_pos hchars]
  simp

/-- Settles O53: ENCR and REND respond with a rendered text, of which both readings are the characters. -/
theorem bothWaysToReadATextAgree : Obligations.BothWaysToReadATextAgree := by
  intro i hi
  have hword : ∃ acc a, happy a ∧ respondsWith i (renderedWord acc a) := by
    rcases hi with ⟨v, rfl⟩ | ⟨a, ha, rfl⟩
    · exact ⟨_, _, happy_dec10 _, respondsWith_encr_dec10 v⟩
    · exact ⟨_, a, ha, respondsWith_rend ha⟩
  obtain ⟨acc, a, ha, hrw⟩ := hword
  exact ⟨_, hrw, (readByLength_renderedWord acc a).trans (readToTerminator_renderedWord acc ha).symm⟩

end Sys2Proof.Proofs
end

section
/-! SUPPORT. Proofs of the statements on reset (70_reset_and_hazards.md R200, R203). -/

namespace Sys2Proof.Proofs

open Sys2Proof.Machine Sys2Proof.Safety Sys2Proof.Laws

/-- Settles O15: a step on a reset empties the responses alone, and the reset state, with nothing presented, is idle. -/
theorem resetReturnsTheBlockToIdle : Obligations.ResetReturnsTheBlockToIdle :=
  ⟨fun _ _ hevents => step_reset hevents, reset_hostEvents, reset_responses, step_idle reset_hostEvents⟩

/-- A command presented right after a reset leaves its response as the only one (70_reset_and_hazards.md R203). -/
theorem runSteps_reset_command_of_respondsWith {i : Instr} {rw : ResponseWord} (hi : respondsWith i rw) {s : State}
    {rest : List HostEvent} (hevents : s.hostEvents = .reset :: .command (encode i) :: rest) :
    runSteps 2 s = .next { hostEvents := rest, responses := [rw], draws := s.draws } := by
  rw [runSteps_succ_of_next 1 (step_reset hevents), runSteps_succ_of_next 0 (step_of_respondsWith hi rfl),
    runSteps_zero, List.nil_append]

/-- Settles O16: the response a command inside its contract gives from every state is the one it gives after a reset. -/
theorem firstCommandAfterResetBehavesLikeAnyOther : Obligations.FirstCommandAfterResetBehavesLikeAnyOther := by
  intro i hi
  obtain ⟨rw, hrw⟩ := responseDependsOnTheCommandAlone i hi
  exact ⟨rw, hrw, fun _ _ => runSteps_reset_command_of_respondsWith hrw⟩

end Sys2Proof.Proofs
end
